-- ==== Sys2Proof/Word.lean ====
section
/-! DEFINITION. The widths of the block: a byte, the 32-bit data word, the 7-bit register address, the
four data bytes of a word and the 5-byte frame (00_scope R6, R9). -/

namespace Sys2Proof

/-- One byte value as the transport delivers it (20_memory R54). -/
abbrev Byte := BitVec 8

/-- A register's data word, `WORD_WIDTH` = 32 (00_scope R6). -/
abbrev Word := BitVec 32

/-- A register address, `ADDR_BITS` = 7 (00_scope R6). -/
abbrev Addr := BitVec 7

/-- Four data bytes, `d0` the most significant (30_encoding R89). -/
structure DataBytes where
  d0 : Byte
  d1 : Byte
  d2 : Byte
  d3 : Byte
  deriving DecidableEq, Repr, Inhabited

/-- A frame: the 5-byte sequence sent or received in one exchange, `b0` first (00_scope R9). -/
structure Frame where
  b0 : Byte
  b1 : Byte
  b2 : Byte
  b3 : Byte
  b4 : Byte
  deriving DecidableEq, Repr, Inhabited

/-- Five zero bytes (43_transaction R163). -/
def Frame.zero : Frame := ⟨0, 0, 0, 0, 0⟩

end Sys2Proof
end

