-- ==== Sys2Proof/Syntax.lean ====
section
/-! DEFINITION. The syntax of the block: field and register specifications (10_state R21, R25), values
(00_scope R11), operands (30_encoding R89) and `Instr`, one constructor per row of the opcode table
(30_encoding R88 and R80 to R83). -/

namespace Sys2Proof

/-- The kind of a field, "boolean | unsigned integer" (10_state R21). -/
inductive Kind where
  | boolean
  | uint
  deriving DecidableEq, Repr, Inhabited

/-- The access of a field, "read-write | read-only" (10_state R21). -/
inductive Access where
  | rw
  | ro
  deriving DecidableEq, Repr, Inhabited

/-- A FieldSpec (10_state R21). Its numbers are naturals, so that an ill-formed one can be written and
then refused (10_state R22). -/
structure FieldSpec where
  name : String
  msbIndex : Nat
  bitWidth : Nat
  kind : Kind
  access : Access
  deriving DecidableEq, Repr, Inhabited

/-- A RegisterSpec (10_state R25). The address is a natural, so that one above 0x7F can be written and
then refused (30_encoding R86). -/
structure RegisterSpec where
  name : String
  address : Nat
  fields : List FieldSpec
  deriving DecidableEq, Repr, Inhabited

/-- One pair `(bit, name)` of `STATUS_LAYOUT` (42_status_overlay R152). -/
structure FlagSpec where
  bit : Nat
  name : String
  deriving DecidableEq, Repr, Inhabited

/-- A field value (00_scope R11). -/
inductive Value where
  | bool (b : Bool)
  | uint (n : Nat)
  deriving DecidableEq, Repr, Inhabited

/-- A `values` map: a finite map from field names to Values, each key at most once (00_scope R11). It is
read by `List.lookup` only. -/
abbrev Values := List (String × Value)

/-- The StatusFlags: a map from flag names to booleans (10_state R31). -/
abbrev Flags := List (String × Bool)

/-- A `reg` operand: a table index or a register name (30_encoding R89). -/
inductive RegRef where
  | index (r : Nat)
  | name (n : String)
  deriving DecidableEq, Repr, Inhabited

/-- The `ENCODE_OVERLAP` policy (40_codec R111). -/
inductive Overlap where
  | or
  | lastWins
  deriving DecidableEq, Repr, Inhabited

/-- The instructions: the twelve host commands (30_encoding R88) and the three wire frames
(30_encoding R81, R82, R83). -/
inductive Instr where
  /-- DECODE, 40_codec R102. -/
  | decode (word : Word) (fields : List FieldSpec)
  /-- ENCODE, 40_codec R105. -/
  | encode (values : Values) (fields : List FieldSpec)
  /-- READ_REGISTER, 43_transaction R161. -/
  | readRegister (addr : Addr)
  /-- WRITE_REGISTER, 43_transaction R164. -/
  | writeRegister (addr : Addr) (data : DataBytes)
  /-- REG_READ, 41_register R130. -/
  | regRead (reg : RegRef)
  /-- REG_WRITE, 41_register R134. -/
  | regWrite (reg : RegRef) (values : Values)
  /-- REG_GET, 41_register R140. -/
  | regGet (reg : RegRef) (name : String)
  /-- STATUS_UPDATE, 42_status_overlay R150. -/
  | statusUpdate (sbyte : Byte)
  /-- READ_ALL, 44_register_map R182. -/
  | readAll
  /-- GET_STATUS, 44_register_map R185. -/
  | getStatus
  /-- LOOKUP, 44_register_map R181. -/
  | lookup (name : String)
  /-- CLOSE, 44_register_map R186. -/
  | close
  /-- READ_REQ, the read request frame, 30_encoding R81. -/
  | readReq (addr : Addr)
  /-- WRITE_REQ, the write request frame, 30_encoding R82. -/
  | writeReq (addr : Addr) (data : Word)
  /-- RESPONSE, the inbound response frame, 30_encoding R83. -/
  | response (status : Byte) (data : Word)
  deriving DecidableEq, Repr, Inhabited

/-- The name of an instruction, as an error records it (60_exceptions R200, column `op`). -/
inductive Op where
  | decode
  | encode
  | readRegister
  | writeRegister
  | regRead
  | regWrite
  | regGet
  | statusUpdate
  | readAll
  | getStatus
  | lookup
  | close
  | readReq
  | writeReq
  | response
  deriving DecidableEq, Repr, Inhabited

/-- The typed operands that stand beside a command byte (30_encoding R89). -/
inductive Operands where
  | none
  | wordFields (word : Word) (fields : List FieldSpec)
  | valuesFields (values : Values) (fields : List FieldSpec)
  | addr (addr : Addr)
  | addrData (addr : Addr) (data : DataBytes)
  | reg (reg : RegRef)
  | regValues (reg : RegRef) (values : Values)
  | regName (reg : RegRef) (name : String)
  | sbyte (sbyte : Byte)
  | name (name : String)
  deriving DecidableEq, Repr, Inhabited

/-- What the block is asked to take: a host command, that is a command byte and typed operands
(30_encoding R87), a bare request frame put on the transport (R80), or a response frame coming in
(R83). The two frame kinds are kept apart because a frame's bits do not say its direction (entry 4). -/
inductive Request where
  | command (c : Byte) (operands : Operands)
  | outbound (f : Frame)
  | inbound (f : Frame)
  deriving DecidableEq, Repr, Inhabited

end Sys2Proof
end

