-- ==== Sys2Proof/WellFormed.lean ====
section
/-! DEFINITION. The well-formedness checks: of a field list (10_state R22, R23), of a register table
(10_state R25, R26, R28), of a status layout (42_status_overlay R152) and of an instruction's operands
(30_encoding R89, R90). Each is a Bool, so that `decide` runs on it. -/

namespace Sys2Proof

/-- 10_state R22: `0 <= msb <= 31`, `1 <= width <= 32`, `msb - width + 1 >= 0`. -/
def FieldSpec.wf (f : FieldSpec) : Bool :=
  f.msbIndex ≤ 31 && 1 ≤ f.bitWidth && f.bitWidth ≤ 32 && f.bitWidth ≤ f.msbIndex + 1

/-- The names of a field list, in list order. -/
def fieldNames (fs : List FieldSpec) : List String := fs.map FieldSpec.name

/-- 10_state R22 for every field and R23: the names are unique within the list. -/
def fieldsWf (fs : List FieldSpec) : Bool :=
  fs.all FieldSpec.wf && decide (fieldNames fs).Nodup

/-- 10_state R25: the address has 7 bits and the fields are well formed. -/
def RegisterSpec.wf (r : RegisterSpec) : Bool :=
  r.address ≤ 0x7F && fieldsWf r.fields

/-- 10_state R28: every register is well formed (R22, R23, R25) and register names are unique (R26).
Equal addresses are allowed (10_state R27). -/
def tableWf (table : List RegisterSpec) : Bool :=
  table.all RegisterSpec.wf && decide (table.map RegisterSpec.name).Nodup

/-- The four fixed status bits (42_status_overlay R151). -/
def fixedFlags : List FlagSpec :=
  [⟨0, "reset_flag"⟩, ⟨1, "driver_error"⟩, ⟨2, "sg2"⟩, ⟨3, "standstill"⟩]

/-- 42_status_overlay R152: 5 to 8 pairs, distinct bits in 0-7, distinct names, the four fixed pairs
among them. -/
def layoutWf (layout : List FlagSpec) : Bool :=
  5 ≤ layout.length && layout.length ≤ 8 && layout.all (fun p => p.bit ≤ 7) &&
    decide (layout.map FlagSpec.bit).Nodup && decide (layout.map FlagSpec.name).Nodup &&
    fixedFlags.all (fun p => decide (p ∈ layout))

/-- 00_scope R11: a map holds each key at most once. -/
def valuesWf (vs : Values) : Bool := decide (vs.map Prod.fst).Nodup

/-- The operands an instruction may have (30_encoding R89, R90; DEDUCED for a repeated key, entry 14). -/
def Instr.wf : Instr → Bool
  | .decode _ fields => fieldsWf fields
  | .encode values fields => valuesWf values && fieldsWf fields
  | .readRegister _ => true
  | .writeRegister _ _ => true
  | .regRead _ => true
  | .regWrite _ values => valuesWf values
  | .regGet _ _ => true
  | .statusUpdate _ => true
  | .readAll => true
  | .getStatus => true
  | .lookup _ => true
  | .close => true
  | .readReq _ => true
  | .writeReq _ _ => true
  | .response _ _ => true

end Sys2Proof
end

