-- ==== Sys2Proof/Config.lean ====
section
/-! DEFINITION. The configuration of a session (00_scope R6, 10_state R20), the value each parameter has
for this hardware, and the free values: what the spec leaves to the variant, the transport or the remote
chip. A constant without a body can be neither evaluated nor proved equal to anything. -/

namespace Sys2Proof

/-- The parameters of one session (00_scope R6). -/
structure Configuration where
  /-- `REGISTER_TABLE` (10_state R25). -/
  table : List RegisterSpec
  /-- `STATUS_LAYOUT` (42_status_overlay R152). -/
  statusLayout : List FlagSpec
  /-- `ENCODE_OVERLAP` (40_codec R111). -/
  encodeOverlap : Overlap
  /-- `OVERLAY_WRITE_STATUS` (41_register R139). -/
  overlayWriteStatus : Bool
  deriving DecidableEq, Repr, Inhabited

/-- The check made once at construction (10_state R28); the layout's own rule R152 is checked with it
(DEDUCED, entry 12). -/
def Configuration.wf (c : Configuration) : Bool := tableWf c.table && layoutWf c.statusLayout

/-- What one exchange on the transport may end in (43_transaction R160 (a), (b), (c)). -/
inductive ExchangeOutcome where
  /-- (a) a 5-byte response frame. -/
  | response (rx : Frame)
  /-- (b) an I/O failure. -/
  | transportError
  /-- (c) the exchange never returns. -/
  | noReturn
  deriving DecidableEq, Repr, Inhabited

/-- A chip variant: a register table and a status layout that the construction check accepts
(10_state R28). The two default values only show that a variant exists. -/
structure Variant where
  table : List RegisterSpec := []
  statusLayout : List FlagSpec := fixedFlags ++ [⟨4, "b4"⟩]
  tableOk : tableWf table = true := by decide
  layoutOk : layoutWf statusLayout = true := by decide
  deriving Inhabited

namespace Config

/-- `ENCODE_OVERLAP` of this hardware (00_scope R6). -/
def encodeOverlap : Overlap := .or

/-- `OVERLAY_WRITE_STATUS` of this hardware (00_scope R6). -/
def overlayWriteStatus : Bool := false

/-- FREE VALUE (entry 11): the variant of the session, OPEN in 00_scope R6. -/
opaque variant : Variant

/-- FREE VALUE (entry 6): how the n-th exchange ends, a draw under no law (20_memory R65). -/
opaque freeOutcome : Nat → ExchangeOutcome

/-- FREE VALUE (entry 19): the status byte the reference responder gives in the n-th exchange (20_memory R64). -/
opaque freeStatus : Nat → Byte

/-- FREE VALUE (entry 19): the data word of the n-th exchange where the reference responder draws it
(20_memory R64). -/
opaque freeData : Nat → Word

/-- The configuration of the session that `State.reset` starts: the variant is free, the two policies are
R6's. -/
def session : Configuration where
  table := variant.table
  statusLayout := variant.statusLayout
  encodeOverlap := encodeOverlap
  overlayWriteStatus := overlayWriteStatus

end Config

end Sys2Proof
end

