-- ==== Sys2Proof/Decode.lean ====
section
/-! DEFINITION. The two encodings of the block: the wire frames (30_encoding R80 to R83) and the host
commands (R87 to R90). First the byte order and the frames, then the decoder, total and rejecting by
name, then the encoder, then the words of the opcode table. -/

namespace Sys2Proof

/-! ### Byte order (40_codec R112, R113) -/

/-- 40_codec R112: most significant byte first. -/
def toBytes (w : Word) : DataBytes :=
  ⟨w.extractLsb' 24 8, w.extractLsb' 16 8, w.extractLsb' 8 8, w.extractLsb' 0 8⟩

/-- 40_codec R113. -/
def fromBytes (d : DataBytes) : Word := d.d0 ++ d.d1 ++ d.d2 ++ d.d3

/-! ### Frames -/

/-- 00_scope R9: the frame as one 40-bit value, `F[39:32] = byte[0]`. -/
def Frame.bits (f : Frame) : BitVec 40 := f.b0 ++ f.b1 ++ f.b2 ++ f.b3 ++ f.b4

/-- 00_scope R9, read the other way. -/
def Frame.ofBits (v : BitVec 40) : Frame :=
  ⟨v.extractLsb' 32 8, v.extractLsb' 24 8, v.extractLsb' 16 8, v.extractLsb' 8 8, v.extractLsb' 0 8⟩

/-- Bit `W`, bit 7 of byte 0 (30_encoding R80, 20_memory R59). -/
def Frame.isWrite (f : Frame) : Bool := f.b0.getLsbD 7

/-- Field `A`, bits 6-0 of byte 0 (30_encoding R80). -/
def Frame.addr (f : Frame) : Addr := f.b0.setWidth 7

/-- Bytes 1 to 4 (30_encoding R80, R83). -/
def Frame.data (f : Frame) : DataBytes := ⟨f.b1, f.b2, f.b3, f.b4⟩

/-- READ_REQ, `[A, 0, 0, 0, 0]` (30_encoding R81). -/
def readFrame (a : Addr) : Frame := ⟨a.setWidth 8, 0, 0, 0, 0⟩

/-- WRITE_REQ, `[A | 0x80, d0, d1, d2, d3]` (30_encoding R82). -/
def writeFrame (a : Addr) (d : DataBytes) : Frame := ⟨a.setWidth 8 ||| 0x80, d.d0, d.d1, d.d2, d.d3⟩

/-- A response frame: the status byte and the data word, big-endian (30_encoding R83). -/
def responseFrame (status : Byte) (d : DataBytes) : Frame := ⟨status, d.d0, d.d1, d.d2, d.d3⟩

/-! ### The decoder -/

/-- Why a request spells no instruction (30_encoding R85, R90). -/
inductive DecodeError where
  /-- `C[7:4] != 0`. -/
  | nonzeroUpperBits
  /-- Opcode 0x0 or 0xD-0xF. -/
  | reservedOpcode
  /-- The operands are not those of the opcode. -/
  | wrongOperands
  /-- A field list that fails 10_state R22 or R23, or a map with a repeated key. -/
  | illFormedOperand
  /-- An outbound frame with `W = 0` and `D != 0`. -/
  | reservedFrame
  deriving DecidableEq, Repr, Inhabited

/-- The opcode assignments of 30_encoding R88. -/
def decodeOpcode (c : Byte) : Except DecodeError Op :=
  if c.extractLsb' 4 4 ≠ 0 then .error .nonzeroUpperBits
  else
    match (c.extractLsb' 0 4).toNat with
    | 0x1 => .ok .decode
    | 0x2 => .ok .encode
    | 0x3 => .ok .readRegister
    | 0x4 => .ok .writeRegister
    | 0x5 => .ok .regRead
    | 0x6 => .ok .regWrite
    | 0x7 => .ok .regGet
    | 0x8 => .ok .statusUpdate
    | 0x9 => .ok .readAll
    | 0xA => .ok .getStatus
    | 0xB => .ok .lookup
    | 0xC => .ok .close
    | _ => .error .reservedOpcode

/-- The instruction of an opcode and its operands (30_encoding R88, column operands). -/
def assemble : Op → Operands → Except DecodeError Instr
  | .decode, .wordFields w fs => .ok (.decode w fs)
  | .encode, .valuesFields vs fs => .ok (.encode vs fs)
  | .readRegister, .addr a => .ok (.readRegister a)
  | .writeRegister, .addrData a d => .ok (.writeRegister a d)
  | .regRead, .reg r => .ok (.regRead r)
  | .regWrite, .regValues r vs => .ok (.regWrite r vs)
  | .regGet, .regName r n => .ok (.regGet r n)
  | .statusUpdate, .sbyte b => .ok (.statusUpdate b)
  | .readAll, .none => .ok .readAll
  | .getStatus, .none => .ok .getStatus
  | .lookup, .name n => .ok (.lookup n)
  | .close, .none => .ok .close
  | _, _ => .error .wrongOperands

/-- A host command (30_encoding R87, R90). -/
def decodeCommand (c : Byte) (o : Operands) : Except DecodeError Instr :=
  match decodeOpcode c with
  | .error e => .error e
  | .ok op =>
    match assemble op o with
    | .error e => .error e
    | .ok i => if i.wf then .ok i else .error .illFormedOperand

/-- A frame on its way out: WRITE_REQ by bit `W`, READ_REQ when `D = 0`, and nothing else
(30_encoding R81, R82, R85). -/
def decodeOutbound (f : Frame) : Except DecodeError Instr :=
  if f.isWrite then .ok (.writeReq f.addr (fromBytes f.data))
  else if fromBytes f.data = 0 then .ok (.readReq f.addr)
  else .error .reservedFrame

/-- A frame coming in: every one of the 2^40 values is a RESPONSE (30_encoding R83). -/
def decodeInbound (f : Frame) : Instr := .response f.b0 (fromBytes f.data)

/-- The decoder. -/
def decode : Request → Except DecodeError Instr
  | .command c o => decodeCommand c o
  | .outbound f => decodeOutbound f
  | .inbound f => .ok (decodeInbound f)

/-! ### The encoder -/

/-- The request that spells an instruction (30_encoding R81, R82, R83, R88). -/
def encode : Instr → Request
  | .decode w fs => .command 0x01 (.wordFields w fs)
  | .encode vs fs => .command 0x02 (.valuesFields vs fs)
  | .readRegister a => .command 0x03 (.addr a)
  | .writeRegister a d => .command 0x04 (.addrData a d)
  | .regRead r => .command 0x05 (.reg r)
  | .regWrite r vs => .command 0x06 (.regValues r vs)
  | .regGet r n => .command 0x07 (.regName r n)
  | .statusUpdate b => .command 0x08 (.sbyte b)
  | .readAll => .command 0x09 .none
  | .getStatus => .command 0x0A .none
  | .lookup n => .command 0x0B (.name n)
  | .close => .command 0x0C .none
  | .readReq a => .outbound (readFrame a)
  | .writeReq a d => .outbound (writeFrame a (toBytes d))
  | .response st d => .inbound (responseFrame st (toBytes d))

/-- The pseudo-command `SET reg, name, v` expands to `REG_WRITE reg, {name=v}` (30_encoding R94). -/
def setCommand (reg : RegRef) (name : String) (v : Value) : Instr := .regWrite reg [(name, v)]

/-! ### The words of the opcode table -/

/-- The operands of an opcode with every value zero or empty (entry 5). -/
def zeroOperands (c : Byte) : Operands :=
  match decodeOpcode c with
  | .ok .decode => .wordFields 0 []
  | .ok .encode => .valuesFields [] []
  | .ok .readRegister => .addr 0
  | .ok .writeRegister => .addrData 0 ⟨0, 0, 0, 0⟩
  | .ok .regRead => .reg (.index 0)
  | .ok .regWrite => .regValues (.index 0) []
  | .ok .regGet => .regName (.index 0) ""
  | .ok .statusUpdate => .sbyte 0
  | .ok .lookup => .name ""
  | _ => .none

/-- The request of a word of the opcode table: a row of one byte is a command byte; a row of 40 bits is a
frame with byte 0 in bits 39..32, outbound where it is a request frame and inbound otherwise (entry 4). -/
def tableRequest (nbits w : Nat) : Request :=
  if nbits ≤ 8 then .command (BitVec.ofNat 8 w) (zeroOperands (BitVec.ofNat 8 w))
  else
    let f := Frame.ofBits (BitVec.ofNat 40 w)
    match decodeOutbound f with
    | .ok _ => .outbound f
    | .error _ => .inbound f

/-- What the decoder reads from a word of the opcode table. -/
def decodeTableWord (nbits w : Nat) : Option Instr :=
  match decode (tableRequest nbits w) with
  | .ok i => some i
  | .error _ => none

end Sys2Proof
end

