-- ==== Sys2Proof/Machine/State.lean ====
section
/-! DEFINITION. The state of the block (10_state R29 to R38), what surrounds it (R39, 20_memory R62 to
R65), the results a command gives (00_scope R12, 60_exceptions R200), the refusals of the model
(60_exceptions R212), and the state after construction (10_state R43). -/

namespace Sys2Proof.Machine

open Sys2Proof

/-- The sequencer phase (10_state R35). -/
inductive Phase where
  | idle
  | rdEx1 (a : Addr)
  | rdEx2 (a : Addr)
  | wrEx (a : Addr)
  deriving DecidableEq, Repr, Inhabited

/-- The five errors with the information each records (60_exceptions R200 to R205). -/
inductive Error where
  /-- `TransportError`: the operation, the failing exchange's number and its `tx` frame (R201). -/
  | transport (op : Op) (number : Nat) (tx : Frame)
  /-- `AccessError`: the register index and the read-only names in `values` (R202). -/
  | access (register : Nat) (fields : List String)
  /-- `RangeError`: the field, the value, the width, and the register index from REG_WRITE (R203). -/
  | range (register : Option Nat) (field : String) (value : Nat) (width : Nat)
  /-- `NotFoundError` for a `reg` operand or a LOOKUP name that matches no register (R204). -/
  | notFoundRegister (register : RegRef)
  /-- `NotFoundError` for field names the register does not declare (R204). -/
  | notFoundFields (register : Nat) (fields : List String)
  /-- `NotFoundError` for a register never read (R204). -/
  | notFoundUnread (register : Nat)
  /-- `ClosedError` (R205). -/
  | closed (op : Op)
  deriving DecidableEq, Repr, Inhabited

/-- The payload of an OK result (30_encoding R88, column OK payload). -/
inductive Payload where
  | none
  | values (m : Values)
  | word (w : Word)
  | readData (status : Byte) (data : DataBytes)
  | value (v : Value)
  | flags (f : Flags)
  | snapshot (valid : Bool) (flags : Option Flags) (raw : Option Byte)
  | register (r : Nat)
  | frame (f : Frame)
  deriving DecidableEq, Repr, Inhabited

/-- The one result of a command (00_scope R12). -/
inductive Result where
  | ok (p : Payload)
  | err (e : Error)
  deriving DecidableEq, Repr, Inhabited

/-- An entry of the exchange log (10_state R38, 43_transaction R160). -/
inductive LogEntry where
  | exchange (tx : Frame) (outcome : ExchangeOutcome)
  | close
  deriving DecidableEq, Repr, Inhabited

/-- What answers the block's exchanges. -/
inductive Environment where
  /-- 20_memory R65: the answers of the next exchanges as far as they are settled, first one first;
  after them every answer is a free value. -/
  | draws (answers : List ExchangeOutcome)
  /-- 20_memory R64: the reference responder, with the remote words of the 128 addresses. Only a claim
  that names it as a premise starts from it. -/
  | reference (regs : Vector Word 128)
  deriving DecidableEq, Repr

/-- The machine. -/
structure State where
  /-- The session's configuration; no step changes it (10_state R20). -/
  config : Configuration
  /-- `Cache[r]`, one entry per register of the table (10_state R29). -/
  cache : List (Option Values)
  /-- The StatusFlags snapshot (10_state R31). -/
  status : Option Flags
  /-- The status byte `status` was decoded from (10_state R32). -/
  statusRaw : Option Byte
  /-- `Closed` (10_state R33). -/
  closed : Bool
  /-- The block holds the transport (10_state R34). -/
  transportHeld : Bool
  /-- The sequencer phase (10_state R35). -/
  phase : Phase
  /-- The frame being sent (10_state R36). -/
  txBuf : Frame
  /-- The frame last received (10_state R36). -/
  rxBuf : Frame
  /-- The exchange log, oldest entry first (10_state R38). -/
  xlog : List LogEntry
  /-- The results given to the host, oldest first (00_scope R12). -/
  results : List Result
  /-- The requests issued and not yet taken, the next one first (20_memory R62, 60_exceptions R217). -/
  pending : List Request
  /-- What answers exchanges (43_transaction R160, 20_memory R64, R65). -/
  environment : Environment
  /-- The remote chip's pipeline: the request last loaded, `none` where it is unknown
  (10_state R39, 20_memory R58). -/
  remotePipeline : Option Frame
  /-- How many exchanges were begun: the index of the free values (entry 6). -/
  drawn : Nat
  deriving DecidableEq, Repr

/-- Nothing in the spec stops this machine with a fault: every error is the result of its command
(60_exceptions R206, R209), and a block whose exchange never returns is stuck in its phase, which is
"neither an error nor a final state" (60_exceptions R213). So the type is empty: nothing raises a fault. -/
inductive Fault where
  deriving DecidableEq, Repr

/-- Why the model gives no meaning (60_exceptions R212). A refusal ends the run, so its mark stays. -/
inductive Refusal where
  /-- Raised by an arm of `exec` whose instruction has no meaning yet; no arm raises it. Safe. -/
  | notModelled (mnemonic : String)
  /-- Raised by `step` for a request that spells no instruction (30_encoding R90, R85). Safe: it errs
  toward unprovable. -/
  | noSuchCommand (why : DecodeError)
  /-- Raised by `construct` for a configuration that fails 10_state R28. Safe: it errs toward
  unprovable. -/
  | illFormedConfiguration
  deriving DecidableEq, Repr

/-- How a sequence of the pseudocode ends (00_scope R10, R12; 43_transaction R160): with a value, with a
raised error, or stuck in an exchange that never returns. -/
inductive Run (α : Type) where
  | done (a : α) (s : State)
  | raised (e : Error) (s : State)
  | stuck (s : State)
  deriving DecidableEq, Repr

/-- What the block takes next: nothing (it waits), a request that spells no instruction, or an
instruction, with the request taken off the queue. -/
inductive Fetched where
  | waits
  | rejected (why : DecodeError)
  | takes (i : Instr) (s : State)
  deriving DecidableEq, Repr

/-- Every field at its value after construction (10_state R43, 70_reset R230), for a given configuration.
The two buffers, which the spec leaves unspecified, are zero (entry 8). -/
def State.ofConfiguration (c : Configuration) : State where
  config := c
  cache := List.replicate c.table.length none
  status := none
  statusRaw := none
  closed := false
  transportHeld := true
  phase := .idle
  txBuf := .zero
  rxBuf := .zero
  xlog := []
  results := []
  pending := []
  environment := .draws []
  remotePipeline := none
  drawn := 0

/-- The machine right after reset: a session of the free variant (10_state R43, entry 11). -/
def State.reset : State := State.ofConfiguration Config.session

end Sys2Proof.Machine
end

