-- ==== Sys2Proof/Machine/Flags.lean ====
section
/-! DEFINITION. The only flags of the block: the named bits of a status byte (42_status_overlay R150 to
R154, 10_state R42). No command computes a flag from a result of its own. -/

namespace Sys2Proof.Machine

open Sys2Proof

/-- STATUS_UPDATE: each pair `(bit, name)` of the layout gives one flag (42_status_overlay R150). -/
def statusFlags (layout : List FlagSpec) (sbyte : Byte) : Flags :=
  layout.map fun p => (p.name, sbyte.getLsbD p.bit)

end Sys2Proof.Machine
end

