-- ==== Sys2Proof/Machine/Operands.lean ====
section
/-! DEFINITION. The field arithmetic of the codec (40_codec R100, R101; 30_encoding R91), the value forms
(00_scope R11), and how field lists and value maps are read (40_codec R102, R105; 41_register R134). -/

namespace Sys2Proof.Machine

open Sys2Proof

/-- `lsb(f) = msb_index - bit_width + 1` (40_codec R100), a natural for a well-formed field. -/
def lsb (f : FieldSpec) : Nat := f.msbIndex + 1 - f.bitWidth

/-- `mask(w) = 2^w - 1`, exact (40_codec R100, 00_scope R8). -/
def mask (w : Nat) : Nat := 2 ^ w - 1

/-- `extract(word, f) = (word >> lsb(f)) & mask(f.bit_width)` (40_codec R101). -/
def extract (w : Word) (f : FieldSpec) : Nat := (w.toNat >>> lsb f) &&& mask f.bitWidth

/-- `num` (00_scope R11, 40_codec R110). -/
def num : Value → Nat
  | .bool b => if b then 1 else 0
  | .uint n => n

/-- One field's value in a word (40_codec R102, R103). -/
def decodeField (w : Word) (f : FieldSpec) : Value :=
  match f.kind with
  | .boolean => .bool (extract w f != 0)
  | .uint => .uint (extract w f)

/-- DECODE's map: one key per field (40_codec R102). -/
def decodeFields (w : Word) (fs : List FieldSpec) : Values :=
  fs.map fun f => (f.name, decodeField w f)

/-- `n << lsb(f)` in the 32-bit word (40_codec R105). -/
def shifted (f : FieldSpec) (n : Nat) : Word := BitVec.ofNat 32 (n <<< lsb f)

/-- One field's value put into the word, by the overlap policy (40_codec R105, R111). -/
def placeField (policy : Overlap) (f : FieldSpec) (n : Nat) (w : Word) : Word :=
  match policy with
  | .or => w ||| shifted f n
  | .lastWins => (w &&& ~~~ shifted f (mask f.bitWidth)) ||| shifted f n

/-- ENCODE's loop over the fields, from the word built so far (40_codec R105 to R109). `register` is what
a RangeError records beside the field (60_exceptions R200). -/
def encodeFields (register : Option Nat) (policy : Overlap) (vs : Values) :
    List FieldSpec → Word → Except Error Word
  | [], w => .ok w
  | f :: fs, w =>
    match f.access with
    | .ro => encodeFields register policy vs fs w
    | .rw =>
      match vs.lookup f.name with
      | none => encodeFields register policy vs fs w
      | some v =>
        if 2 ^ f.bitWidth ≤ num v then .error (.range register f.name (num v) f.bitWidth)
        else encodeFields register policy vs fs (placeField policy f (num v) w)

/-- The keys of a map. -/
def keys (vs : Values) : List String := vs.map Prod.fst

/-- The keys of `values` that name no field: the set `U` of 41_register R134. -/
def unknownKeys (fs : List FieldSpec) (vs : Values) : List String :=
  (keys vs).filter fun k => decide (k ∉ fieldNames fs)

/-- The read-only fields that `values` names: the set `A` of 41_register R134. -/
def readOnlyKeys (fs : List FieldSpec) (vs : Values) : List String :=
  fieldNames (fs.filter fun f => f.access == .ro && decide (f.name ∈ keys vs))

/-- `merged`: a key in `values` overrides the cached value (41_register R134, R136). -/
def mergeValues (vs base : Values) : Values :=
  vs ++ base.filter fun p => decide (p.1 ∉ keys vs)

end Sys2Proof.Machine
end

