-- ==== Sys2Proof/Machine/Ops.lean ====
section
/-! DEFINITION. The shared operations: construction, the updates of single fields, one exchange on the
transport, the sequencing of a command, raising an error and giving a result. -/

namespace Sys2Proof.Machine

open Sys2Proof

/-- Construction (44_register_map R180): the configuration is checked once, and an ill-formed one has no
initial state (10_state R28, 60_exceptions R212). It performs no exchange. -/
def construct (c : Configuration) : Host.Outcome State Fault Refusal :=
  if c.wf then .next (State.ofConfiguration c) else .refused .illFormedConfiguration

/-! ### Updates of State -/

/-- `Phase <- p` (10_state R35). -/
def State.setPhase (p : Phase) (s : State) : State := { s with phase := p }

/-- `RxBuf <- f` (10_state R36). -/
def State.setRx (f : Frame) (s : State) : State := { s with rxBuf := f }

/-- The buffers as `old` has them (60_exceptions R207, 10_state R36). -/
def State.restoreBuffers (s old : State) : State := { s with txBuf := old.txBuf, rxBuf := old.rxBuf }

/-- A result is given to the host (00_scope R12). -/
def State.addResult (r : Result) (s : State) : State := { s with results := s.results ++ [r] }

/-- `Cache[r] <- m`, the whole map (10_state R30). -/
def State.setCache (r : Nat) (m : Values) (s : State) : State := { s with cache := s.cache.set r (some m) }

/-- `StatusRaw <- b; Status <- STATUS_UPDATE(b)` (10_state R32, 42_status_overlay R156). -/
def State.overlay (b : Byte) (s : State) : State :=
  { s with statusRaw := some b, status := some (statusFlags s.config.statusLayout b) }

/-- `TransportClose(); Closed <- true`: the block gives the transport up (44_register_map R186, 10_state
R33, R34, R38). -/
def State.release (s : State) : State :=
  { s with closed := true, transportHeld := false, xlog := s.xlog ++ [.close] }

/-! ### One exchange -/

/-- The data bytes the reference responder answers with: the word the pending request reads, and a draw
where the pending request is no read or is unknown (20_memory R64). -/
def responderData (regs : Vector Word 128) (pipeline : Option Frame) (n : Nat) : DataBytes :=
  match pipeline with
  | none => toBytes (Config.freeData n)
  | some p => if p.isWrite then toBytes (Config.freeData n) else toBytes (regs[p.addr.toNat]'p.addr.isLt)

/-- The remote words after a request: a write stores its data word (20_memory R64). -/
def responderRegs (regs : Vector Word 128) (tx : Frame) : Vector Word 128 :=
  if tx.isWrite then regs.set tx.addr.toNat (fromBytes tx.data) tx.addr.isLt else regs

/-- How the exchange of `tx` ends, and what answers the exchanges after it (43_transaction R160,
20_memory R64, R65). -/
def answer (tx : Frame) (s : State) : ExchangeOutcome × Environment :=
  match s.environment with
  | .draws [] => (Config.freeOutcome s.drawn, .draws [])
  | .draws (o :: os) => (o, .draws os)
  | .reference regs =>
    (.response (responseFrame (Config.freeStatus s.drawn) (responderData regs s.remotePipeline s.drawn)),
      .reference (responderRegs regs tx))

/-- What RxBuf holds after an exchange: the response, or what it held before (10_state R36). -/
def rxAfter (o : ExchangeOutcome) (old : Frame) : Frame :=
  match o with
  | .response rx => rx
  | .transportError => old
  | .noReturn => old

/-- What the remote pipeline holds after an exchange: its request (10_state R39, 20_memory R58); what it held
before where the exchange failed (70_reset R241); unknown where it never returned (entry 18). -/
def pipelineAfter (tx : Frame) (o : ExchangeOutcome) (old : Option Frame) : Option Frame :=
  match o with
  | .response _ => some tx
  | .transportError => old
  | .noReturn => none

/-- `TxBuf <- tx; RxBuf <- Exchange(TxBuf)`: one exchange, recorded in XLog (43_transaction R160, R161,
10_state R38). -/
def exchange (tx : Frame) (s : State) : ExchangeOutcome × State :=
  ((answer tx s).1,
    { s with
      txBuf := tx
      rxBuf := rxAfter (answer tx s).1 s.rxBuf
      xlog := s.xlog ++ [.exchange tx (answer tx s).1]
      environment := (answer tx s).2
      remotePipeline := pipelineAfter tx (answer tx s).1 s.remotePipeline
      drawn := s.drawn + 1 })

/-! ### Sequencing, errors, results -/

/-- What follows a sequence runs only where the sequence gave a value (00_scope R10: `raise` ends the
command; 60_exceptions R210). -/
def andThen {α β : Type} (r : Run α) (k : α → State → Run β) : Run β :=
  match r with
  | .done a s => k a s
  | .raised e s => .raised e s
  | .stuck s => .stuck s

/-- Exchange `number` of the operation `op`: its failure is raised at once as TransportError, with no
retry (43_transaction R160, R166, R168; 60_exceptions R201). -/
def exchangeOrRaise (op : Op) (number : Nat) (tx : Frame) (s : State) : Run Frame :=
  match exchange tx s with
  | (.response rx, s') => .done rx s'
  | (.transportError, s') => .raised (.transport op number tx) s'
  | (.noReturn, s') => .stuck s'

/-- Errors are precise: a sequence that raises has written no block state (60_exceptions R207). Of the block
state of 10_state R29 to R36 a sequence writes, before it can raise, only the buffers, which are again as `s`,
the state it began in, has them, and `Phase`, which `takeError` returns to IDLE. XLog and the remote chip keep
what the exchanges did to them. How this goes with the pseudocode of 43_transaction R161: entry 9. -/
def precisely {α : Type} (s : State) : Run α → Run α
  | .done a t => .done a t
  | .raised e t => .raised e (t.restoreBuffers s)
  | .stuck t => .stuck t

/-- The `Closed` check that stands first in every operation of the facade (60_exceptions R205). -/
def whileOpen {α : Type} (op : Op) (s : State) (k : Run α) : Run α :=
  if s.closed then .raised (.closed op) s else k

/-- `resolve(reg)` over a table (41_register preamble, 44_register_map R181): an index in range, or the
index of the register of that name. -/
def resolve (table : List RegisterSpec) : RegRef → Option Nat
  | .index r => if r < table.length then some r else none
  | .name n => table.findIdx? fun R => R.name == n

/-- The step `r <- resolve(reg)` of a command: NotFoundError where there is no such register
(60_exceptions R204). -/
def withRegister {α : Type} (reg : RegRef) (s : State) (k : Nat → Run α) : Run α :=
  match resolve s.config.table reg with
  | none => .raised (.notFoundRegister reg) s
  | some r => k r

/-- `Table[r]` (10_state R25). -/
def registerSpec (s : State) (r : Nat) : RegisterSpec := s.config.table.getD r default

/-- `Table[r].fields`. -/
def registerFields (s : State) (r : Nat) : List FieldSpec := (registerSpec s r).fields

/-- `Table[r].address`, 7 bits (30_encoding R86). -/
def registerAddr (s : State) (r : Nat) : Addr := BitVec.ofNat 7 (registerSpec s r).address

/-- `Cache[r]` (10_state R29). -/
def cacheEntry (s : State) (r : Nat) : Option Values := s.cache.getD r none

/-- An error is the result of the command that raised it, and `Phase` returns to IDLE: there is no
handler, no vector, no saved counter and no mode change (60_exceptions R206, R207). There is no return
from an error either: the next command is accepted normally (60_exceptions R209). -/
def takeError (e : Error) (s : State) : State := (s.addResult (.err e)).setPhase .idle

/-- A command ends with OK, and `Phase` returns to IDLE (00_scope R12, 10_state R35). -/
def giveOk (p : Payload) (s : State) : State := (s.addResult (.ok p)).setPhase .idle

/-- The end of a command: exactly one result, or none where an exchange never returns (00_scope R12). -/
def finish : Run Payload → State
  | .done p s => giveOk p s
  | .raised e s => takeError e s
  | .stuck s => s

/-- The numeric code of an error (60_exceptions R200). -/
def errorCode : Error → Nat
  | .transport _ _ _ => 1
  | .access _ _ => 2
  | .range _ _ _ _ => 3
  | .notFoundRegister _ => 4
  | .notFoundFields _ _ => 4
  | .notFoundUnread _ => 4
  | .closed _ => 5

/-- The numeric code of a result (60_exceptions R200: OK is 0). -/
def resultCode : Result → Nat
  | .ok _ => 0
  | .err e => errorCode e

/-- The next request, if the block is IDLE: a request issued while it is not waits (20_memory R62, 10_state
R35), and a block with nothing to take waits for the host (60_exceptions R217). -/
def fetch (s : State) : Fetched :=
  match s.phase with
  | .rdEx1 _ => .waits
  | .rdEx2 _ => .waits
  | .wrEx _ => .waits
  | .idle =>
    match s.pending with
    | [] => .waits
    | r :: rest =>
      match decode r with
      | .error why => .rejected why
      | .ok i => .takes i { s with pending := rest }

end Sys2Proof.Machine
end

