-- ==== Sys2Proof/Machine/Codec.lean ====
section
/-! DEFINITION. The codec commands DECODE and ENCODE (40_codec R102, R105). They read no block state but
the parameter `ENCODE_OVERLAP`, perform no exchange and are not affected by `Closed` (40_codec R114). -/

namespace Sys2Proof.Machine

open Sys2Proof

/-- DECODE (40_codec R102). -/
def execDecode (w : Word) (fs : List FieldSpec) (s : State) : Host.Outcome State Fault Refusal :=
  .next (finish (.done (.values (decodeFields w fs)) s))

/-- ENCODE's value or its RangeError (40_codec R105, R109). -/
def encodeRun (vs : Values) (fs : List FieldSpec) (s : State) : Run Payload :=
  match encodeFields none s.config.encodeOverlap vs fs 0 with
  | .ok w => .done (.word w) s
  | .error e => .raised e s

/-- ENCODE (40_codec R105). -/
def execEncode (vs : Values) (fs : List FieldSpec) (s : State) : Host.Outcome State Fault Refusal :=
  .next (finish (encodeRun vs fs s))

end Sys2Proof.Machine
end

