-- ==== Sys2Proof/Machine/Engine.lean ====
section
/-! DEFINITION. The transaction engine: its two sequences `ReadSeq` and `WriteSeq`, the raw commands
READ_REGISTER and WRITE_REGISTER (43_transaction R161 to R168), and the wire frames as instructions
(30_encoding R81 to R83; entries 2 and 3). -/

namespace Sys2Proof.Machine

open Sys2Proof

/-- `ReadSeq(a)`: the address exchange, whose response is discarded, then the flush exchange, whose
response is returned (43_transaction R161 to R163, R168). -/
def readSeq (op : Op) (a : Addr) (s : State) : Run (Byte × DataBytes) :=
  precisely s <| andThen (exchangeOrRaise op 1 (readFrame a) (s.setPhase (.rdEx1 a))) fun _ s1 =>
    andThen (exchangeOrRaise op 2 .zero (s1.setPhase (.rdEx2 a))) fun rx s2 =>
      .done (rx.b0, rx.data) (s2.setPhase .idle)

/-- `WriteSeq(a, d)`: one exchange, whose response is returned to the caller (43_transaction R164, R165). -/
def writeSeq (op : Op) (a : Addr) (d : DataBytes) (s : State) : Run Frame :=
  precisely s <| andThen (exchangeOrRaise op 1 (writeFrame a d) (s.setPhase (.wrEx a))) fun rx s1 =>
    .done rx (s1.setPhase .idle)

/-- READ_REGISTER's sequence (43_transaction R161). -/
def readRegisterRun (a : Addr) (s : State) : Run Payload :=
  whileOpen .readRegister s <|
    andThen (readSeq .readRegister a s) fun r s1 => .done (.readData r.1 r.2) s1

/-- READ_REGISTER (43_transaction R161). -/
def execReadRegister (a : Addr) (s : State) : Host.Outcome State Fault Refusal :=
  .next (finish (readRegisterRun a s))

/-- WRITE_REGISTER's sequence; the response is discarded (43_transaction R164, R165). -/
def writeRegisterRun (a : Addr) (d : DataBytes) (s : State) : Run Payload :=
  whileOpen .writeRegister s <|
    andThen (writeSeq .writeRegister a d s) fun _ s1 => .done .none s1

/-- WRITE_REGISTER (43_transaction R164). -/
def execWriteRegister (a : Addr) (d : DataBytes) (s : State) : Host.Outcome State Fault Refusal :=
  .next (finish (writeRegisterRun a d s))

/-- One exchange of a request frame by itself, under the hold of the phase it belongs to: the primitive
`Exchange(tx)` (43_transaction R160; DESIGN CHOICE, entry 2). -/
def bareExchange (op : Op) (p : Phase) (tx : Frame) (s : State) : Run Payload :=
  whileOpen op s <|
    andThen (precisely s (exchangeOrRaise op 1 tx (s.setPhase p))) fun rx s1 => .done (.frame rx) s1

/-- READ_REQ: the exchange of the read request frame (30_encoding R81, 43_transaction R160). -/
def execReadReq (a : Addr) (s : State) : Host.Outcome State Fault Refusal :=
  .next (finish (bareExchange .readReq (.rdEx1 a) (readFrame a) s))

/-- WRITE_REQ: the exchange of the write request frame (30_encoding R82, 43_transaction R160, R164). -/
def execWriteReq (a : Addr) (d : Word) (s : State) : Host.Outcome State Fault Refusal :=
  .next (finish (bareExchange .writeReq (.wrEx a) (writeFrame a (toBytes d)) s))

/-- RESPONSE: the inbound frame is accepted whatever its bytes, and the receive buffer holds it
(30_encoding R83, 10_state R36; DESIGN CHOICE, entry 3). -/
def execResponse (st : Byte) (d : Word) (s : State) : Host.Outcome State Fault Refusal :=
  .next (s.setRx (responseFrame st (toBytes d)))

end Sys2Proof.Machine
end

