-- ==== Sys2Proof/Machine/Register.lean ====
section
/-! DEFINITION. The Register commands REG_READ, REG_WRITE and REG_GET (41_register R130 to R143). -/

namespace Sys2Proof.Machine

open Sys2Proof

/-- The commit of REG_READ: the three writes take effect together (41_register R130, R132, R133). -/
def commitRead (r : Nat) (st : Byte) (d : DataBytes) (s : State) : State :=
  (s.setCache r (decodeFields (fromBytes d) (registerFields s r))).overlay st

/-- REG_READ's sequence (41_register R130, R131). READ_ALL runs it too (44_register_map R182). -/
def regReadRun (reg : RegRef) (s : State) : Run Payload :=
  whileOpen .regRead s <| withRegister reg s fun r =>
    andThen (readSeq .regRead (registerAddr s r) s) fun x s1 => .done .none (commitRead r x.1 x.2 s1)

/-- REG_READ (41_register R130). -/
def execRegRead (reg : RegRef) (s : State) : Host.Outcome State Fault Refusal :=
  .next (finish (regReadRun reg s))

/-- The merge base: the cached map, or the empty map for a register never read (41_register R134, R137). -/
def mergeBase (s : State) (r : Nat) : Values := (cacheEntry s r).getD []

/-- The status byte of a write's response is overlaid only under `OVERLAY_WRITE_STATUS` (41_register
R139). -/
def overlayWrite (rx : Frame) (s : State) : State :=
  if s.config.overlayWriteStatus then s.overlay rx.b0 else s

/-- The write of a register once its keys are checked: merge, encode, send (41_register R134, R136). -/
def mergedWrite (r : Nat) (vs : Values) (s : State) : Run Payload :=
  match encodeFields (some r) s.config.encodeOverlap (mergeValues vs (mergeBase s r)) (registerFields s r) 0 with
  | .error e => .raised e s
  | .ok w =>
    andThen (writeSeq .regWrite (registerAddr s r) (toBytes w) s) fun rx s1 => .done .none (overlayWrite rx s1)

/-- REG_WRITE's sequence, its checks in the order of 60_exceptions R208 (41_register R134, R135, R142). -/
def regWriteRun (reg : RegRef) (vs : Values) (s : State) : Run Payload :=
  whileOpen .regWrite s <| withRegister reg s fun r =>
    if unknownKeys (registerFields s r) vs ≠ [] then
      .raised (.notFoundFields r (unknownKeys (registerFields s r) vs)) s
    else if readOnlyKeys (registerFields s r) vs ≠ [] then
      .raised (.access r (readOnlyKeys (registerFields s r) vs)) s
    else mergedWrite r vs s

/-- REG_WRITE (41_register R134). -/
def execRegWrite (reg : RegRef) (vs : Values) (s : State) : Host.Outcome State Fault Refusal :=
  .next (finish (regWriteRun reg vs s))

/-- REG_GET's lookup in the cached map. A cached map that lacks a declared name stands in no state a run
reaches (10_state R29); it reads as unread (entry 26). -/
def cachedValue (r : Nat) (name : String) (s : State) : Run Payload :=
  match cacheEntry s r with
  | none => .raised (.notFoundUnread r) s
  | some m =>
    match m.lookup name with
    | none => .raised (.notFoundUnread r) s
    | some v => .done (.value v) s

/-- REG_GET's sequence (41_register R140, R141). -/
def regGetRun (reg : RegRef) (name : String) (s : State) : Run Payload :=
  whileOpen .regGet s <| withRegister reg s fun r =>
    if name ∉ fieldNames (registerFields s r) then .raised (.notFoundFields r [name]) s
    else cachedValue r name s

/-- REG_GET (41_register R140). -/
def execRegGet (reg : RegRef) (name : String) (s : State) : Host.Outcome State Fault Refusal :=
  .next (finish (regGetRun reg name s))

end Sys2Proof.Machine
end

