-- ==== Sys2Proof/Machine/Facade.lean ====
section
/-! DEFINITION. The Status Overlay's command STATUS_UPDATE (42_status_overlay R150) and the Register
Map's commands LOOKUP, READ_ALL, GET_STATUS and CLOSE (44_register_map R181 to R189). -/

namespace Sys2Proof.Machine

open Sys2Proof

/-- STATUS_UPDATE: pure, unaffected by `Closed`; as a command it overlays nothing (42_status_overlay R150,
R153). -/
def execStatusUpdate (sbyte : Byte) (s : State) : Host.Outcome State Fault Refusal :=
  .next (finish (.done (.flags (statusFlags s.config.statusLayout sbyte)) s))

/-- LOOKUP's sequence (44_register_map R181). -/
def lookupRun (name : String) (s : State) : Run Payload :=
  whileOpen .lookup s <| withRegister (.name name) s fun r => .done (.register r) s

/-- LOOKUP (44_register_map R181). -/
def execLookup (name : String) (s : State) : Host.Outcome State Fault Refusal :=
  .next (finish (lookupRun name s))

/-- REG_READ of each register of a list in turn; the first error ends it (44_register_map R182, R184). -/
def readEach : List Nat → State → Run Payload
  | [], s => .done .none s
  | r :: rs, s => andThen (regReadRun (.index r) s) fun _ s1 => readEach rs s1

/-- READ_ALL's sequence: the whole table, index 0 first (44_register_map R182, R183). -/
def readAllRun (s : State) : Run Payload :=
  whileOpen .readAll s <| readEach (List.range s.config.table.length) s

/-- READ_ALL (44_register_map R182). -/
def execReadAll (s : State) : Host.Outcome State Fault Refusal :=
  .next (finish (readAllRun s))

/-- The snapshot GET_STATUS answers with (44_register_map R185). -/
def statusSnapshot (s : State) : Payload :=
  match s.status with
  | none => .snapshot false none none
  | some f => .snapshot true (some f) s.statusRaw

/-- GET_STATUS (44_register_map R185). -/
def execGetStatus (s : State) : Host.Outcome State Fault Refusal :=
  .next (finish (whileOpen .getStatus s (.done (statusSnapshot s) s)))

/-- CLOSE; on a closed block it makes no transport call (44_register_map R186, R188). -/
def execClose (s : State) : Host.Outcome State Fault Refusal :=
  .next (finish (whileOpen .close s (.done .none s.release)))

end Sys2Proof.Machine
end

