-- ==== Sys2Proof/Machine/Dispatch.lean ====
section
/-! DEFINITION. One arm per constructor of `Instr` (30_encoding R88, R81 to R83). -/

namespace Sys2Proof.Machine

open Sys2Proof

def exec (i : Instr) (s : State) : Host.Outcome State Fault Refusal :=
  match i with
  | .decode word fields => Sys2Proof.Machine.execDecode word fields s
  | .encode values fields => Sys2Proof.Machine.execEncode values fields s
  | .readRegister addr => Sys2Proof.Machine.execReadRegister addr s
  | .writeRegister addr data => Sys2Proof.Machine.execWriteRegister addr data s
  | .regRead reg => Sys2Proof.Machine.execRegRead reg s
  | .regWrite reg values => Sys2Proof.Machine.execRegWrite reg values s
  | .regGet reg name => Sys2Proof.Machine.execRegGet reg name s
  | .statusUpdate sbyte => Sys2Proof.Machine.execStatusUpdate sbyte s
  | .readAll => Sys2Proof.Machine.execReadAll s
  | .getStatus => Sys2Proof.Machine.execGetStatus s
  | .lookup name => Sys2Proof.Machine.execLookup name s
  | .close => Sys2Proof.Machine.execClose s
  | .readReq addr => Sys2Proof.Machine.execReadReq addr s
  | .writeReq addr data => Sys2Proof.Machine.execWriteReq addr data s
  | .response status data => Sys2Proof.Machine.execResponse status data s

end Sys2Proof.Machine
end

