-- ==== Sys2Proof/Machine/Step.lean ====
section
/-! DEFINITION. One step of the machine: it takes the next request and runs it whole (20_memory R61, R62),
or it waits. -/

namespace Sys2Proof.Machine

open Sys2Proof

/-- One step. A block with nothing to take, and a block that is stuck in an exchange, stays as it is
(20_memory R62, 60_exceptions R213); a request that spells nothing is refused (60_exceptions R212). -/
def step (s : State) : Host.Outcome State Fault Refusal :=
  match fetch s with
  | .waits => .next s
  | .rejected why => .refused (.noSuchCommand why)
  | .takes i s' => exec i s'

/-- The state in which the next step takes the request of a word of the opcode table (entry 1): the block
is IDLE and the request stands first in the queue. -/
def State.withFetchWord (s : State) (nbits w : Nat) : State :=
  { s with phase := .idle, pending := tableRequest nbits w :: s.pending }

end Sys2Proof.Machine
end

