-- ==== Sys2Proof/Safety.lean ====
section
/-! DEFINITION. The terms in which statements speak of the machine: legal frames, bits of a word, field
lists without overlap, values that fit, and `Inv`, what holds of every state a session can be in. -/

namespace Sys2Proof.Machine

open Sys2Proof

/-! ### The wire -/

/-- A frame the block may emit: a WRITE_REQ, or a READ_REQ, whose data word is zero (30_encoding R85). -/
def legalRequest (f : Frame) : Prop :=
  (∃ a, f = readFrame a) ∨ (∃ a d, f = writeFrame a d)

/-! ### Fields -/

/-- The field occupies bit `i` of the word, `[msb_index : lsb]` (00_scope R7). -/
def covers (f : FieldSpec) (i : Nat) : Prop := f.msbIndex + 1 ≤ i + f.bitWidth ∧ i ≤ f.msbIndex

/-- `word[f.msb_index : lsb(f)]`, read as an unsigned number (00_scope R7, R8). -/
def wordBits (w : Word) (f : FieldSpec) : Nat :=
  (w.extractLsb' (f.msbIndex + 1 - f.bitWidth) f.bitWidth).toNat

/-- The bit ranges are pairwise disjoint (40_codec R115). -/
def disjointFields (fs : List FieldSpec) : Prop :=
  fs.Pairwise fun f g => ∀ i, ¬ (covers f i ∧ covers g i)

/-- The value has the field's kind and width (40_codec R115). -/
def fits (f : FieldSpec) (v : Value) : Prop :=
  match f.kind, v with
  | .boolean, .bool _ => True
  | .boolean, .uint _ => False
  | .uint, .bool _ => False
  | .uint, .uint n => n < 2 ^ f.bitWidth

/-- A map with exactly one key per field, each value of the field's kind and width (40_codec R115). -/
def assigns (vs : Values) (fs : List FieldSpec) : Prop :=
  valuesWf vs = true ∧ (∀ k, k ∈ keys vs ↔ k ∈ fieldNames fs) ∧
    ∀ f ∈ fs, ∀ v, vs.lookup f.name = some v → fits f v

/-- `cover(F)`: the OR of the masks of the fields (40_codec R117). -/
def coverMask : List FieldSpec → Word
  | [] => 0
  | f :: fs => shifted f (mask f.bitWidth) ||| coverMask fs

/-- ENCODE puts the value `v` of the map into the field (40_codec R105): it is writable and present. -/
def encodes (vs : Values) (f : FieldSpec) (v : Value) : Prop :=
  f.access = .rw ∧ vs.lookup f.name = some v

/-- No value that ENCODE puts into a field is too wide for it (40_codec R109). -/
def inRange (vs : Values) (fs : List FieldSpec) : Prop :=
  ∀ f ∈ fs, ∀ v, encodes vs f v → num v < 2 ^ f.bitWidth

/-! ### Commands -/

/-- The name of an instruction, as errors record it (60_exceptions R200). -/
def opOf : Instr → Op
  | .decode _ _ => .decode
  | .encode _ _ => .encode
  | .readRegister _ => .readRegister
  | .writeRegister _ _ => .writeRegister
  | .regRead _ => .regRead
  | .regWrite _ _ => .regWrite
  | .regGet _ _ => .regGet
  | .statusUpdate _ => .statusUpdate
  | .readAll => .readAll
  | .getStatus => .getStatus
  | .lookup _ => .lookup
  | .close => .close
  | .readReq _ => .readReq
  | .writeReq _ _ => .writeReq
  | .response _ _ => .response

/-- The commands that fail after CLOSE (44_register_map R187). -/
def facadeOps : List Op :=
  [.readRegister, .writeRegister, .regRead, .regWrite, .regGet, .readAll, .getStatus, .lookup, .close]

/-- The pure commands (44_register_map R187). -/
def pureOps : List Op := [.decode, .encode, .statusUpdate]

/-- The error is a TransportError (60_exceptions R201). -/
def isTransportError : Error → Bool
  | .transport _ _ _ => true
  | .access _ _ => false
  | .range _ _ _ _ => false
  | .notFoundRegister _ => false
  | .notFoundFields _ _ => false
  | .notFoundUnread _ => false
  | .closed _ => false

/-- The state after a command that touches nothing but its result (00_scope R12, 10_state R35). -/
def answered (s : State) (r : Result) : State := { s with phase := .idle, results := s.results ++ [r] }

/-- The `values` that REG_WRITE of register `r` sends: each key is declared, none is read-only, and the merged
map fits its fields (41_register R134, R135, R142, 40_codec R109). -/
def acceptsWrite (s : State) (r : Nat) (vs : Values) : Prop :=
  (∀ k ∈ keys vs, k ∈ fieldNames (registerFields s r)) ∧
  (∀ f ∈ registerFields s r, f.access = .ro → f.name ∉ keys vs) ∧
  inRange (mergeValues vs (mergeBase s r)) (registerFields s r)

/-- The instruction reads the register at the address `a`: READ_REGISTER, or REG_READ of a register of the
table (43_transaction R161, 41_register R130). -/
def readsAt (s : State) (i : Instr) (a : Addr) : Prop :=
  i = .readRegister a ∨
    ∃ reg r, i = .regRead reg ∧ resolve s.config.table reg = some r ∧ a = registerAddr s r

/-- The instruction writes the register at the address `a`: WRITE_REGISTER, or REG_WRITE that passes its checks
(43_transaction R164, 41_register R134). -/
def writesAt (s : State) (i : Instr) (a : Addr) : Prop :=
  (∃ d, i = .writeRegister a d) ∨
    ∃ reg r vs, i = .regWrite reg vs ∧ resolve s.config.table reg = some r ∧ acceptsWrite s r vs ∧
      a = registerAddr s r

/-- The instruction leaves the block stuck in the phase `p`: no result, nothing committed, and no later step
moves it (43_transaction R160 (c), 60_exceptions R213; the steps that wait: entry 7). -/
def sticksIn (i : Instr) (s : State) (p : Phase) : Prop :=
  ∃ t, exec i s = .next t ∧ t.phase = p ∧ t.results = s.results ∧ t.cache = s.cache ∧ t.status = s.status ∧
    t.statusRaw = s.statusRaw ∧ t.closed = s.closed ∧ ∀ n, Host.Core.run Sys2Proof.core n t = .next t

/-! ### What goes over the wire -/

/-- How many exchanges a list of log entries holds. -/
def exchangeCount (l : List LogEntry) : Nat :=
  l.countP fun e => match e with
    | .exchange _ _ => true
    | .close => false

/-- How many exchanges an instruction performs at most: two for a register read, one for a write or a bare
frame, two per register for READ_ALL (43_transaction R161, R164, 44_register_map R182). -/
def exchangeBudget (s : State) : Op → Nat
  | .readRegister => 2
  | .regRead => 2
  | .readAll => 2 * s.config.table.length
  | .writeRegister => 1
  | .regWrite => 1
  | .readReq => 1
  | .writeReq => 1
  | .decode => 0
  | .encode => 0
  | .regGet => 0
  | .statusUpdate => 0
  | .getStatus => 0
  | .lookup => 0
  | .close => 0
  | .response => 0

/-- The log entries of one read of each register of a list, with the responses `(first, second)`. -/
def readEntries (s : State) : Nat → List (Frame × Frame) → List LogEntry
  | _, [] => []
  | r, p :: ps =>
    .exchange (readFrame (registerAddr s r)) (.response p.1) :: .exchange .zero (.response p.2) ::
      readEntries s (r + 1) ps

/-- The answers `(first, second)` as the transport gives them. -/
def readAnswers (ps : List (Frame × Frame)) : List ExchangeOutcome :=
  ps.flatMap fun p => [.response p.1, .response p.2]

/-! ### The invariant of a session -/

/-- What holds of the machine from construction on. -/
structure Inv (s : State) : Prop where
  /-- 10_state R28. -/
  configWf : s.config.wf = true
  /-- 10_state R29: one entry per register. -/
  cacheLength : s.cache.length = s.config.table.length
  /-- 10_state R29, 41_register R132: an entry is a map decoded from one word by the register's fields. -/
  cacheDecoded : ∀ r m, s.cache[r]? = some (some m) → ∃ w, m = decodeFields w (registerFields s r)
  /-- 10_state R32. -/
  statusOfRaw : s.status = s.statusRaw.map (statusFlags s.config.statusLayout)
  /-- 10_state R34. -/
  heldUnlessClosed : s.transportHeld = !s.closed
  /-- 30_encoding R85. -/
  framesLegal : ∀ tx o, LogEntry.exchange tx o ∈ s.xlog → legalRequest tx
  /-- 10_state R33, 44_register_map R186. -/
  closedIffLogged : s.closed = true ↔ LogEntry.close ∈ s.xlog
  /-- 44_register_map R187, R188: after the close nothing goes to the transport. -/
  closeIsLast : ∀ before after, s.xlog = before ++ LogEntry.close :: after → after = []
  /-- 10_state R35, 60_exceptions R213: only an exchange that never returned keeps the block busy. -/
  busyOnlyIfStuck : s.phase ≠ .idle → ∃ tx, s.xlog.getLast? = some (.exchange tx .noReturn)

end Sys2Proof.Machine
end

