-- ==== Sys2Proof/Certificates/Slice0/Obligations.lean ====
section
/-! DEFINITION. The statements for the provers, one Prop each, from the numbered rules of the spec. Where a
statement gives the next state as `s` with some fields changed, that equation is its frame too: every field
not named is unchanged. -/

open Sys2Proof Sys2Proof.Machine

/-! ### Codec -/

/-- 40_codec R101, R102, R103: DECODE gives one key per field, and the field's own bits, zero-extended;
booleans by "nonzero". Nothing but the result changes. -/
def Obligations.DecodeGivesEachFieldItsBits : Prop :=
  ∀ (s : State) (w : Word) (fs : List FieldSpec), fieldsWf fs = true →
    ∃ m : Values,
      exec (.decode w fs) s = .next (answered s (.ok (.values m))) ∧
      keys m = fieldNames fs ∧
      ∀ f ∈ fs, m.lookup f.name =
        some (match f.kind with
          | .boolean => .bool (wordBits w f != 0)
          | .uint => .uint (wordBits w f))

/-- 40_codec R104: what DECODE gives for a field depends on the field's bits of the word and on its kind
only: a field of any other list, with the same kind and the same bits, decodes to the same value. -/
def Obligations.DecodedFieldIsIndependent : Prop :=
  ∀ (s t : State) (w w' : Word) (fs gs : List FieldSpec) (f g : FieldSpec),
    fieldsWf fs = true → fieldsWf gs = true → f ∈ fs → g ∈ gs →
    f.kind = g.kind → wordBits w f = wordBits w' g →
    ∃ (m m' : Values) (v : Value),
      exec (.decode w fs) s = .next (answered s (.ok (.values m))) ∧
      exec (.decode w' gs) t = .next (answered t (.ok (.values m'))) ∧
      m.lookup f.name = some v ∧ m'.lookup g.name = some v

/-- 40_codec R105 to R108, R111 under the policy `or`: a bit of ENCODE's word is 1 exactly where some
writable field present in the map has a 1 there. So omitted fields, read-only fields, unknown keys and
uncovered bits give zero. -/
def Obligations.EncodeOrsTheFields : Prop :=
  ∀ (s : State) (vs : Values) (fs : List FieldSpec),
    fieldsWf fs = true → inRange vs fs → s.config.encodeOverlap = .or →
    ∃ w : Word,
      exec (.encode vs fs) s = .next (answered s (.ok (.word w))) ∧
      ∀ i, i < 32 →
        (w.getLsbD i = true ↔
          ∃ f ∈ fs, ∃ v, encodes vs f v ∧ covers f i ∧
            (num v).testBit (i + f.bitWidth - (f.msbIndex + 1)) = true)

/-- 40_codec R111 under the policy `last_wins`: the last writable field present in the map that covers a
bit decides it, and a bit that none covers is 0. -/
def Obligations.EncodeLastFieldWins : Prop :=
  ∀ (s : State) (vs : Values) (fs : List FieldSpec),
    fieldsWf fs = true → inRange vs fs → s.config.encodeOverlap = .lastWins →
    ∃ w : Word,
      exec (.encode vs fs) s = .next (answered s (.ok (.word w))) ∧
      (∀ i before f after v, i < 32 → fs = before ++ f :: after → encodes vs f v → covers f i →
        (∀ g ∈ after, ∀ u, encodes vs g u → ¬ covers g i) →
        w.getLsbD i = (num v).testBit (i + f.bitWidth - (f.msbIndex + 1))) ∧
      (∀ i, i < 32 → (∀ f ∈ fs, ∀ v, encodes vs f v → ¬ covers f i) → w.getLsbD i = false)

/-- 40_codec R111: on fields whose bit ranges are disjoint the two policies give the same word. -/
def Obligations.OverlapPoliciesAgreeOnDisjointFields : Prop :=
  ∀ (s s' : State) (vs : Values) (fs : List FieldSpec),
    fieldsWf fs = true → inRange vs fs → disjointFields fs →
    s.config.encodeOverlap = .or → s'.config.encodeOverlap = .lastWins →
    ∃ w : Word,
      exec (.encode vs fs) s = .next (answered s (.ok (.word w))) ∧
      exec (.encode vs fs) s' = .next (answered s' (.ok (.word w)))

/-- 40_codec R109: a value of `2^bit_width` or more for a writable field raises RangeError and no word is
returned; where several are too wide, the first in list order is named; and where none is, ENCODE succeeds. -/
def Obligations.EncodeNamesTheFirstFieldOutOfRange : Prop :=
  (∀ (s : State) (vs : Values) (before after : List FieldSpec) (f : FieldSpec) (v : Value),
    inRange vs before → encodes vs f v → 2 ^ f.bitWidth ≤ num v →
    exec (.encode vs (before ++ f :: after)) s =
      .next (answered s (.err (.range none f.name (num v) f.bitWidth)))) ∧
  (∀ (s : State) (vs : Values) (fs : List FieldSpec), inRange vs fs →
    ∃ w : Word, exec (.encode vs fs) s = .next (answered s (.ok (.word w))))

/-- 40_codec R116: the greatest value of a writable field encodes to itself shifted into place, and the next
one raises RangeError, under either policy. -/
def Obligations.RangeLaw : Prop :=
  ∀ (s : State) (f : FieldSpec), f.wf = true → f.access = .rw →
    exec (.encode [(f.name, .uint (2 ^ f.bitWidth - 1))] [f]) s =
        .next (answered s (.ok (.word (BitVec.ofNat 32 ((2 ^ f.bitWidth - 1) * 2 ^ (f.msbIndex + 1 - f.bitWidth)))))) ∧
      exec (.encode [(f.name, .uint (2 ^ f.bitWidth))] [f]) s =
        .next (answered s (.err (.range none f.name (2 ^ f.bitWidth) f.bitWidth)))

/-- 40_codec R115, the round-trip law as the spec qualifies it, under either policy and whatever state
decodes the word. -/
def Obligations.DecodeOfEncodeGivesTheValuesBack : Prop :=
  ∀ (s t : State) (vs : Values) (fs : List FieldSpec),
    fieldsWf fs = true → disjointFields fs → (∀ f ∈ fs, f.access = .rw) → assigns vs fs →
    ∃ (w : Word) (m : Values),
      exec (.encode vs fs) s = .next (answered s (.ok (.word w))) ∧
      exec (.decode w fs) t = .next (answered t (.ok (.values m))) ∧
      ∀ k, m.lookup k = vs.lookup k

/-- 40_codec R117, the decode-encode law for unsigned fields; and its failure for a boolean field of two
bits, whose content `0b10` re-encodes as `0b01`. -/
def Obligations.EncodeOfDecodeKeepsTheCoveredBits : Prop :=
  (∀ (s t : State) (w : Word) (fs : List FieldSpec),
    fieldsWf fs = true → disjointFields fs → (∀ f ∈ fs, f.access = .rw) → (∀ f ∈ fs, f.kind = .uint) →
    ∃ m : Values,
      exec (.decode w fs) s = .next (answered s (.ok (.values m))) ∧
      exec (.encode m fs) t = .next (answered t (.ok (.word (w &&& coverMask fs))))) ∧
  (∀ (s t : State) (name : String),
    ∃ m : Values,
      exec (.decode 2 [⟨name, 1, 2, .boolean, .rw⟩]) s = .next (answered s (.ok (.values m))) ∧
      exec (.encode m [⟨name, 1, 2, .boolean, .rw⟩]) t = .next (answered t (.ok (.word 1))))

/-- 40_codec R114, 44_register_map R187: a pure command gives the same result in any two states of one
configuration, closed or not, and writes nothing but its result. -/
def Obligations.PureCommandsReadNoBlockState : Prop :=
  ∀ (i : Instr), opOf i ∈ pureOps → ∀ (s s' : State), s.config = s'.config →
    ∃ r : Result, exec i s = .next (answered s r) ∧ exec i s' = .next (answered s' r)

/-! ### Bytes and frames -/

/-- 40_codec R112, R113: the word travels most significant byte first, and the two conversions are each
other's inverses. -/
def Obligations.WordBytesAreBigEndianAndInvert : Prop :=
  (∀ w : Word, toBytes w =
    ⟨w.extractLsb' 24 8, w.extractLsb' 16 8, w.extractLsb' 8 8, w.extractLsb' 0 8⟩) ∧
  (∀ d0 d1 d2 d3 : Byte, (fromBytes ⟨d0, d1, d2, d3⟩).toNat =
    d0.toNat * 2 ^ 24 + d1.toNat * 2 ^ 16 + d2.toNat * 2 ^ 8 + d3.toNat) ∧
  (∀ w : Word, fromBytes (toBytes w) = w) ∧ (∀ d : DataBytes, toBytes (fromBytes d) = d)

/-- 30_encoding R81, R82, R84: the two request frames bit by bit, the write bit first, and the flush frame is
the read request of address 0. -/
def Obligations.RequestFramesHaveTheirBits : Prop :=
  (∀ a : Addr, (readFrame a).bits = ((0#1 ++ a ++ 0#32 : BitVec (1 + 7 + 32)) : BitVec 40)) ∧
  (∀ (a : Addr) (d : DataBytes),
    (writeFrame a d).bits = ((1#1 ++ a ++ fromBytes d : BitVec (1 + 7 + 32)) : BitVec 40)) ∧
  readFrame 0 = ⟨0, 0, 0, 0, 0⟩

/-- 30_encoding R88, R89 and R80 to R83: decoding what a well-formed instruction is spelled with gives that
instruction back, for every instruction and every operand. -/
def Obligations.DecodeOfEncodedInstruction : Prop :=
  ∀ i : Instr, i.wf = true → decode (encode i) = .ok i

/-- 30_encoding R80 to R83: the other direction, for frames: the request that an outbound or inbound frame
decodes to spells that very frame. -/
def Obligations.FrameOfDecodedRequest : Prop :=
  (∀ (f : Frame) (i : Instr), decode (.outbound f) = .ok i → encode i = .outbound f) ∧
  (∀ f : Frame, ∃ st d, decode (.inbound f) = .ok (.response st d) ∧ encode (.response st d) = .inbound f)

/-- 30_encoding R88: command bytes 0x01, 0x07 and 0x0C spell DECODE, REG_GET and CLOSE. -/
def Obligations.SomeCommandBytesDecode : Prop :=
  decode (.command 0b00000001 (.wordFields 9 [⟨"shaft", 4, 1, .boolean, .rw⟩])) =
      .ok (.decode 9 [⟨"shaft", 4, 1, .boolean, .rw⟩]) ∧
    decode (.command 0b00000111 (.regName (.name "CFG") "shaft")) = .ok (.regGet (.name "CFG") "shaft") ∧
    decode (.command 0b00001100 .none) = .ok .close

/-- 30_encoding R90, 60_exceptions R212: a command byte with opcode 0x0 or 0xD to 0xF, or with nonzero upper
bits, and a field-list operand that fails 10_state R22 or R23, are refused by the step that would take
them. -/
def Obligations.UnspelledCommandsAreRefused : Prop :=
  ∀ (s : State) (rest : List Request), s.phase = .idle →
    (∀ (c : Byte) (o : Operands), (c.toNat = 0 ∨ 13 ≤ c.toNat) → s.pending = .command c o :: rest →
      ∃ why, step s = .refused (.noSuchCommand why)) ∧
    (∀ (w : Word) (fs : List FieldSpec), fieldsWf fs = false → s.pending = .command 0x01 (.wordFields w fs) :: rest →
      step s = .refused (.noSuchCommand .illFormedOperand)) ∧
    (∀ (vs : Values) (fs : List FieldSpec), fieldsWf fs = false →
      s.pending = .command 0x02 (.valuesFields vs fs) :: rest →
      step s = .refused (.noSuchCommand .illFormedOperand))

/-! ### Steps -/

/-- 20_memory R61, R62: when the block is IDLE and the next request decodes to `i`, the step is `exec i` in the
state with that request taken off the queue. -/
def Obligations.StepRunsTheDecodedInstruction : Prop :=
  ∀ (s : State) (r : Request) (rest : List Request) (i : Instr),
    s.phase = .idle → s.pending = r :: rest → decode r = .ok i →
    step s = exec i { s with pending := rest }

/-- 20_memory R62, 60_exceptions R213: while the block is not IDLE no request is taken, dropped or run; and an
IDLE block with no request waits for one. -/
def Obligations.BusyOrUnaskedBlockWaits : Prop :=
  ∀ s : State, (s.phase ≠ .idle → step s = .next s) ∧
    (s.phase = .idle → s.pending = [] → step s = .next s)

/-- 10_state R20, R33: no step changes the configuration, none reopens a closed block, and only a step that
takes CLOSE closes it. -/
def Obligations.OnlyCloseCloses : Prop :=
  ∀ s t : State, step s = .next t →
    t.config = s.config ∧ (s.closed = true → t.closed = true) ∧
    (s.closed = false → t.closed = true →
      ∃ r rest, s.phase = .idle ∧ s.pending = r :: rest ∧ decode r = .ok .close)

/-- 00_scope R12: an instruction other than an inbound frame ends with exactly one result and the block in
IDLE, or it never ends: then it gives no result, and an exchange that never returned is the last thing on the
wire. -/
def Obligations.ExactlyOneResult : Prop :=
  ∀ (i : Instr) (s : State), opOf i ≠ .response →
    ∃ t, exec i s = .next t ∧
      ((∃ r, t.results = s.results ++ [r] ∧ t.phase = .idle) ∨
       (t.results = s.results ∧ t.phase ≠ .idle ∧
        ∃ tx, t.xlog.getLast? = some (.exchange tx .noReturn)))

/-- 10_state R38: the log only grows, and the block never reads it: from a state with any other log the same
instruction does the same and adds the same entries. -/
def Obligations.TheLogIsOnlyWritten : Prop :=
  ∀ (i : Instr) (s : State), ∃ (t : State) (added : List LogEntry),
    exec i s = .next t ∧ t.xlog = s.xlog ++ added ∧
    ∀ x, exec i { s with xlog := x } = .next { t with xlog := x ++ added }

/-- 30_encoding R85, R86: every frame an instruction puts on the wire is a READ_REQ or a WRITE_REQ. -/
def Obligations.OnlyLegalFramesAreEmitted : Prop :=
  ∀ (i : Instr) (s t : State), exec i s = .next t →
    ∃ added, t.xlog = s.xlog ++ added ∧ ∀ tx o, LogEntry.exchange tx o ∈ added → legalRequest tx

/-- 43_transaction R161, R164, R166, 44_register_map R182: how many exchanges each instruction performs at
most: two for a read, one for a write or a bare frame, two per register for READ_ALL, none for the others.
There are no retries. -/
def Obligations.ExchangesPerInstruction : Prop :=
  ∀ (i : Instr) (s t : State), exec i s = .next t →
    ∃ added, t.xlog = s.xlog ++ added ∧
      exchangeCount added ≤
        exchangeBudget s (opOf i)

/-! ### Who writes what -/

/-- 10_state R30, 41_register R138: `Cache` is written by REG_READ and READ_ALL only, and REG_READ leaves the
entries of the other registers. -/
def Obligations.CacheIsWrittenByReadsOnly : Prop :=
  ∀ (i : Instr) (s t : State), exec i s = .next t →
    (opOf i ≠ .regRead → opOf i ≠ .readAll → t.cache = s.cache) ∧
    (∀ reg r, i = .regRead reg → resolve s.config.table reg = some r →
      ∀ r', r' ≠ r → cacheEntry t r' = cacheEntry s r')

/-- 10_state R31, R32, 60_exceptions R211: `Status` and `StatusRaw` are written by REG_READ and READ_ALL, and
by REG_WRITE only under `OVERLAY_WRITE_STATUS`. -/
def Obligations.StatusIsWrittenByReadsOnly : Prop :=
  ∀ (i : Instr) (s t : State), exec i s = .next t →
    opOf i ≠ .regRead → opOf i ≠ .readAll →
    (opOf i = .regWrite → s.config.overlayWriteStatus = false) →
    t.status = s.status ∧ t.statusRaw = s.statusRaw

/-- The frame of every instruction: the configuration and the queue never change; TxBuf, the environment, the
pipeline and the counter change only where the instruction performs an exchange, and RxBuf only there and by an
inbound frame, which changes nothing else; `Closed` and the hold of the transport change only by CLOSE (10_state
R20, R33, R34, R36). -/
def Obligations.FrameOfEveryInstruction : Prop :=
  ∀ (i : Instr) (s t : State), exec i s = .next t →
    t.config = s.config ∧ t.pending = s.pending ∧
    (opOf i ≠ .close → t.closed = s.closed ∧ t.transportHeld = s.transportHeld) ∧
    (∃ added, t.xlog = s.xlog ++ added ∧
      (exchangeCount added = 0 →
        t.txBuf = s.txBuf ∧ t.environment = s.environment ∧ t.remotePipeline = s.remotePipeline ∧
        t.drawn = s.drawn ∧ (opOf i ≠ .response → t.rxBuf = s.rxBuf))) ∧
    (opOf i = .response → ∃ f, t = { s with rxBuf := f })

/-! ### Errors -/

/-- 44_register_map R187, R188, 60_exceptions R205: after CLOSE every command of the facade, CLOSE among them,
fails with ClosedError; nothing but the result changes, so no transport call is made. -/
def Obligations.ClosedBlockRaisesClosedError : Prop :=
  ∀ (i : Instr) (s : State), opOf i ∈ facadeOps → s.closed = true →
    exec i s = .next (answered s (.err (.closed (opOf i))))

/-- 60_exceptions R207, R208: an error other than TransportError is raised before the first exchange and
writes nothing at all but the result. -/
def Obligations.OtherErrorsTouchNothing : Prop :=
  ∀ (i : Instr) (s t : State) (e : Error), exec i s = .next t →
    t.results = s.results ++ [.err e] → isTransportError e = false → t = answered s (.err e)

/-- 60_exceptions R207: a command that raises writes no block state: `Cache`, `Status`, `StatusRaw`, `Closed`, the
hold of the transport and the two buffers are as they were (of the buffers: entry 9); `Phase` returns to IDLE, and
XLog only grows. Of READ_ALL, which keeps `Cache`, `Status` and the buffers of the reads it completed, this
says the rest (what it keeps: `ReadAllStopsAtTheFirstError`). -/
def Obligations.TransportErrorWritesNoBlockState : Prop :=
  ∀ (i : Instr) (s t : State) (e : Error), exec i s = .next t →
    t.results = s.results ++ [.err e] →
    t.phase = .idle ∧ t.closed = s.closed ∧ t.transportHeld = s.transportHeld ∧ t.config = s.config ∧
    (∃ added, t.xlog = s.xlog ++ added) ∧
    (opOf i ≠ .readAll → t.cache = s.cache ∧ t.status = s.status ∧ t.statusRaw = s.statusRaw ∧
      t.txBuf = s.txBuf ∧ t.rxBuf = s.rxBuf)

/-- 41_register R134, R135, R142, 60_exceptions R208: REG_WRITE's checks in their order, each before any
exchange: the register, then unknown names, then read-only names, then the ranges of the merged map. The name
sets are exactly the offending keys. -/
def Obligations.RegWriteChecksInOrder : Prop :=
  ∀ (s : State) (reg : RegRef) (vs : Values), s.closed = false →
    (resolve s.config.table reg = none →
      exec (.regWrite reg vs) s = .next (answered s (.err (.notFoundRegister reg)))) ∧
    ∀ r, resolve s.config.table reg = some r →
      ((∃ k ∈ keys vs, k ∉ fieldNames (registerFields s r)) →
        ∃ U, (∀ k, k ∈ U ↔ k ∈ keys vs ∧ k ∉ fieldNames (registerFields s r)) ∧
          exec (.regWrite reg vs) s = .next (answered s (.err (.notFoundFields r U)))) ∧
      ((∀ k ∈ keys vs, k ∈ fieldNames (registerFields s r)) →
        (∃ f ∈ registerFields s r, f.access = .ro ∧ f.name ∈ keys vs) →
        ∃ A, (∀ k, k ∈ A ↔ ∃ f ∈ registerFields s r, f.name = k ∧ f.access = .ro ∧ k ∈ keys vs) ∧
          exec (.regWrite reg vs) s = .next (answered s (.err (.access r A)))) ∧
      (∀ before f after v, (∀ k ∈ keys vs, k ∈ fieldNames (registerFields s r)) →
        (∀ g ∈ registerFields s r, g.access = .ro → g.name ∉ keys vs) →
        registerFields s r = before ++ f :: after →
        inRange (mergeValues vs (mergeBase s r)) before →
        encodes (mergeValues vs (mergeBase s r)) f v → 2 ^ f.bitWidth ≤ num v →
        exec (.regWrite reg vs) s = .next (answered s (.err (.range (some r) f.name (num v) f.bitWidth))))

/-- 60_exceptions R203: in a state of a session only a value supplied in `values` can make REG_WRITE raise
RangeError; a value taken from the cache always fits. -/
def Obligations.CachedValuesNeverRaiseRangeError : Prop :=
  ∀ (s t : State) (reg : RegRef) (vs : Values) (x : Option Nat) (name : String) (n width : Nat),
    Inv s → exec (.regWrite reg vs) s = .next t →
    t.results = s.results ++ [.err (.range x name n width)] →
    ∃ v, vs.lookup name = some v ∧ num v = n ∧ 2 ^ width ≤ n

/-! ### The engine -/

/-- 43_transaction R162, R163: READ_REGISTER puts `[a,0,0,0,0]` and then five zero bytes on the wire, discards
the first response and returns the second; `Cache` and `Status` are not written. -/
def Obligations.ReadRegisterReturnsTheSecondResponse : Prop :=
  ∀ (s : State) (a : Addr) (r0 r1 : Frame) (rest : List ExchangeOutcome),
    s.closed = false → s.environment = .draws (.response r0 :: .response r1 :: rest) →
    exec (.readRegister a) s = .next
      { answered s (.ok (.readData r1.b0 ⟨r1.b1, r1.b2, r1.b3, r1.b4⟩)) with
        txBuf := ⟨0, 0, 0, 0, 0⟩
        rxBuf := r1
        xlog := s.xlog ++ [.exchange ⟨a.setWidth 8, 0, 0, 0, 0⟩ (.response r0),
          .exchange ⟨0, 0, 0, 0, 0⟩ (.response r1)]
        environment := .draws rest
        remotePipeline := some ⟨0, 0, 0, 0, 0⟩
        drawn := s.drawn + 2 }

/-- 43_transaction R168, for READ_REGISTER and for REG_READ: when exchange #1 fails, exchange #2 is not
attempted; when exchange #2 fails, the first response stays discarded; both raise TransportError with the
exchange's number and frame, and the block is IDLE again, with no block state written. That the buffers, which the
pseudocode writes before the failure, are as they were before the command (entry 9), and that a failed exchange
leaves the remote pipeline as it was (entry 18), are the model's inferences. -/
def Obligations.FailedReadStopsAtTheFailedExchange : Prop :=
  ∀ (s : State) (i : Instr) (a : Addr) (rest : List ExchangeOutcome), s.closed = false →
    (i = .readRegister a ∨ ∃ reg r, i = .regRead reg ∧ resolve s.config.table reg = some r ∧ a = registerAddr s r) →
    (s.environment = .draws (.transportError :: rest) →
      exec i s = .next
        { answered s (.err (.transport (opOf i) 1 ⟨a.setWidth 8, 0, 0, 0, 0⟩)) with
          xlog := s.xlog ++ [.exchange ⟨a.setWidth 8, 0, 0, 0, 0⟩ .transportError]
          environment := .draws rest
          drawn := s.drawn + 1 }) ∧
    (∀ r0, s.environment = .draws (.response r0 :: .transportError :: rest) →
      exec i s = .next
        { answered s (.err (.transport (opOf i) 2 ⟨0, 0, 0, 0, 0⟩)) with
          xlog := s.xlog ++ [.exchange ⟨a.setWidth 8, 0, 0, 0, 0⟩ (.response r0),
            .exchange ⟨0, 0, 0, 0, 0⟩ .transportError]
          environment := .draws rest
          remotePipeline := some ⟨a.setWidth 8, 0, 0, 0, 0⟩
          drawn := s.drawn + 2 })

/-- 43_transaction R160 (c), 60_exceptions R213: where an exchange of READ_REGISTER, REG_READ, WRITE_REGISTER or
REG_WRITE never returns, the block stays in that exchange's phase, `RD_EX1(a)`, `RD_EX2(a)` or `WR_EX(a)`, with no
result and with `Cache`, `Status` and `Closed` as they were, and no later step moves it (that it goes on stepping
in place is the model's form of being stuck, entry 7). -/
def Obligations.ExchangeThatNeverReturnsSticks : Prop :=
  ∀ (s : State) (i : Instr) (a : Addr) (rest : List ExchangeOutcome), s.closed = false →
    (readsAt s i a → s.environment = .draws (.noReturn :: rest) → sticksIn i s (.rdEx1 a)) ∧
    (∀ r0, readsAt s i a → s.environment = .draws (.response r0 :: .noReturn :: rest) →
      sticksIn i s (.rdEx2 a)) ∧
    (writesAt s i a → s.environment = .draws (.noReturn :: rest) → sticksIn i s (.wrEx a))

/-- 30_encoding R82, 43_transaction R164, R165: WRITE_REGISTER performs the one exchange of
`[a | 0x80, d0, d1, d2, d3]` and completes whatever the response; no state but the engine's is written from
it. -/
def Obligations.WriteRegisterSendsItsFrame : Prop :=
  ∀ (s : State) (a : Addr) (d : DataBytes) (rx : Frame) (rest : List ExchangeOutcome),
    s.closed = false → s.environment = .draws (.response rx :: rest) →
    exec (.writeRegister a d) s = .next
      { answered s (.ok .none) with
        txBuf := ⟨a.setWidth 8 ||| 0x80, d.d0, d.d1, d.d2, d.d3⟩
        rxBuf := rx
        xlog := s.xlog ++ [.exchange ⟨a.setWidth 8 ||| 0x80, d.d0, d.d1, d.d2, d.d3⟩ (.response rx)]
        environment := .draws rest
        remotePipeline := some ⟨a.setWidth 8 ||| 0x80, d.d0, d.d1, d.d2, d.d3⟩
        drawn := s.drawn + 1 }

/-- 43_transaction R166, 60_exceptions R201, for WRITE_REGISTER and for REG_WRITE that passes its checks: where the
exchange fails, the command raises TransportError with its own name, number 1 and the frame, after that one
exchange, which is not repeated; no block state is written, whatever `OVERLAY_WRITE_STATUS` is. That TxBuf, which
the pseudocode writes before the failure, is as it was before the command (entry 9), and that a failed exchange
leaves the remote pipeline as it was (entry 18), are the model's inferences. -/
def Obligations.FailedWriteIsNotRetried : Prop :=
  ∀ (s : State) (rest : List ExchangeOutcome),
    s.closed = false → s.environment = .draws (.transportError :: rest) →
    (∀ (a : Addr) (d : DataBytes),
      exec (.writeRegister a d) s = .next
        { answered s (.err (.transport .writeRegister 1 (writeFrame a d))) with
          xlog := s.xlog ++ [.exchange (writeFrame a d) .transportError]
          environment := .draws rest
          drawn := s.drawn + 1 }) ∧
    (∀ (reg : RegRef) (r : Nat) (vs : Values), resolve s.config.table reg = some r → acceptsWrite s r vs →
      ∃ w : Word,
        (∀ s0 : State, s0.config = s.config →
          exec (.encode (mergeValues vs (mergeBase s r)) (registerFields s r)) s0 =
            .next (answered s0 (.ok (.word w)))) ∧
        exec (.regWrite reg vs) s = .next
          { answered s (.err (.transport .regWrite 1 (writeFrame (registerAddr s r) (toBytes w)))) with
            xlog := s.xlog ++ [.exchange (writeFrame (registerAddr s r) (toBytes w)) .transportError]
            environment := .draws rest
            drawn := s.drawn + 1 })

/-- 20_memory R64 with 43_transaction R163, under the reference responder as a premise: READ_REGISTER returns
the remote word of its address and changes no remote word. The status byte is a free value. -/
def Obligations.ReferenceReadReturnsTheRemoteWord : Prop :=
  ∀ (s : State) (a : Addr) (regs : Vector Word 128),
    s.closed = false → s.environment = .reference regs →
    ∃ t st, exec (.readRegister a) s = .next t ∧
      t.results = s.results ++ [.ok (.readData st (toBytes (regs[a.toNat]'a.isLt)))] ∧
      t.environment = .reference regs ∧ t.phase = .idle

/-- 20_memory R64 with 70_reset R240, under the reference responder as a premise: a read that follows a write
directly returns the word written where the addresses are equal, and the old word elsewhere. -/
def Obligations.ReferenceReadAfterWrite : Prop :=
  ∀ (s : State) (a b : Addr) (d : DataBytes) (regs : Vector Word 128),
    s.closed = false → s.environment = .reference regs →
    ∃ t u st, exec (.writeRegister a d) s = .next t ∧ exec (.readRegister b) t = .next u ∧
      u.results = s.results ++ [.ok .none,
        .ok (.readData st (if b = a then d else toBytes (regs[b.toNat]'b.isLt)))]

/-- READ_REQ as an instruction (30_encoding R81, 43_transaction R160; the model's choice, entry 2): one
exchange of its frame, whose response is the payload. -/
def Obligations.ReadRequestFrameIsExchanged : Prop :=
  ∀ (s : State) (a : Addr) (rx : Frame) (rest : List ExchangeOutcome),
    s.closed = false → s.environment = .draws (.response rx :: rest) →
    exec (.readReq a) s = .next
      { answered s (.ok (.frame rx)) with
        txBuf := ⟨a.setWidth 8, 0, 0, 0, 0⟩
        rxBuf := rx
        xlog := s.xlog ++ [.exchange ⟨a.setWidth 8, 0, 0, 0, 0⟩ (.response rx)]
        environment := .draws rest
        remotePipeline := some ⟨a.setWidth 8, 0, 0, 0, 0⟩
        drawn := s.drawn + 1 }

/-- WRITE_REQ as an instruction (30_encoding R82, 43_transaction R160; the model's choice, entry 2). -/
def Obligations.WriteRequestFrameIsExchanged : Prop :=
  ∀ (s : State) (a : Addr) (d : Word) (rx : Frame) (rest : List ExchangeOutcome),
    s.closed = false → s.environment = .draws (.response rx :: rest) →
    exec (.writeReq a d) s = .next
      { answered s (.ok (.frame rx)) with
        txBuf := writeFrame a (toBytes d)
        rxBuf := rx
        xlog := s.xlog ++ [.exchange (writeFrame a (toBytes d)) (.response rx)]
        environment := .draws rest
        remotePipeline := some (writeFrame a (toBytes d))
        drawn := s.drawn + 1 }

/-- RESPONSE as an instruction (30_encoding R83, 10_state R36; the model's choice, entry 3): every inbound
frame is accepted, in any state; the receive buffer holds it and nothing else changes. -/
def Obligations.EveryResponseIsAccepted : Prop :=
  ∀ (s : State) (f : Frame),
    exec (decodeInbound f) s = .next { s with rxBuf := f }

/-- 43_transaction R161 seen on the wire (the bare frames are the model's, entry 2): the read request frame of
`a` followed by the flush frame leaves the wire, the receive buffer, the environment and the pipeline exactly
as READ_REGISTER does, when neither exchange fails. -/
def Obligations.TwoReadFramesMakeARead : Prop :=
  ∀ (s : State) (a : Addr) (r0 r1 : Frame) (rest : List ExchangeOutcome),
    s.closed = false → s.environment = .draws (.response r0 :: .response r1 :: rest) →
    ∃ t u v, exec (.readReq a) s = .next t ∧ exec (.readReq 0) t = .next u ∧
      exec (.readRegister a) s = .next v ∧
      u.xlog = v.xlog ∧ u.rxBuf = v.rxBuf ∧ u.txBuf = v.txBuf ∧ u.environment = v.environment ∧
      u.remotePipeline = v.remotePipeline ∧ u.phase = v.phase

/-! ### Registers -/

/-- 41_register R130, R132, R133, 42_status_overlay R153: REG_READ of a register decodes the second response's
word into its whole cache entry and its status byte into `Status`. -/
def Obligations.RegReadCommitsTheSecondResponse : Prop :=
  ∀ (s : State) (reg : RegRef) (r : Nat) (r0 r1 : Frame) (rest : List ExchangeOutcome),
    s.closed = false → resolve s.config.table reg = some r →
    s.environment = .draws (.response r0 :: .response r1 :: rest) →
    exec (.regRead reg) s = .next
      { answered s (.ok .none) with
        cache := s.cache.set r
          (some (decodeFields (r1.b1 ++ r1.b2 ++ r1.b3 ++ r1.b4 : BitVec 32) (registerFields s r)))
        statusRaw := some r1.b0
        status := some (statusFlags s.config.statusLayout r1.b0)
        txBuf := ⟨0, 0, 0, 0, 0⟩
        rxBuf := r1
        xlog := s.xlog ++ [.exchange ⟨(registerAddr s r).setWidth 8, 0, 0, 0, 0⟩ (.response r0),
          .exchange ⟨0, 0, 0, 0, 0⟩ (.response r1)]
        environment := .draws rest
        remotePipeline := some ⟨0, 0, 0, 0, 0⟩
        drawn := s.drawn + 2 }

/-- 41_register R131: REG_READ is all or nothing, whatever the transport does: it raises and writes none of
`Cache`, `Status`, `StatusRaw`, or it returns OK and has written all three, or it is stuck and has written
none. Of a register that the table does not have it raises NotFoundError (60_exceptions R204). -/
def Obligations.RegReadIsAllOrNothing : Prop :=
  ∀ (s : State) (reg : RegRef), ∃ t, exec (.regRead reg) s = .next t ∧
    (s.closed = false → resolve s.config.table reg = none → t = answered s (.err (.notFoundRegister reg))) ∧
    ((∃ e, t.results = s.results ++ [.err e] ∧ t.cache = s.cache ∧ t.status = s.status ∧
        t.statusRaw = s.statusRaw) ∨
     (∃ r m b, resolve s.config.table reg = some r ∧ t.results = s.results ++ [.ok .none] ∧
        t.cache = s.cache.set r (some m) ∧ keys m = fieldNames (registerFields s r) ∧
        t.statusRaw = some b ∧ t.status = some (statusFlags s.config.statusLayout b)) ∨
     (t.phase ≠ .idle ∧ t.results = s.results ∧ t.cache = s.cache ∧ t.status = s.status ∧
        t.statusRaw = s.statusRaw))

/-- 41_register R134, R136, R137, R138, R139: REG_WRITE that passes its checks sends the word that ENCODE makes
of the merged map, in one exchange; a key in `values` overrides the cached value, and the map of a register
never read is empty. The cache is not written, and `Status` only under `OVERLAY_WRITE_STATUS`. -/
def Obligations.RegWriteSendsTheMergedWord : Prop :=
  ∀ (s : State) (reg : RegRef) (r : Nat) (vs : Values) (rx : Frame) (rest : List ExchangeOutcome),
    s.closed = false → resolve s.config.table reg = some r →
    (∀ k ∈ keys vs, k ∈ fieldNames (registerFields s r)) →
    (∀ f ∈ registerFields s r, f.access = .ro → f.name ∉ keys vs) →
    inRange (mergeValues vs (mergeBase s r)) (registerFields s r) →
    s.environment = .draws (.response rx :: rest) →
    ∃ (merged : Values) (w : Word),
      (∀ k, merged.lookup k =
        match vs.lookup k with
        | some v => some v
        | none => match cacheEntry s r with
          | some m => m.lookup k
          | none => none) ∧
      (∀ s0 : State, s0.config = s.config →
        exec (.encode merged (registerFields s r)) s0 = .next (answered s0 (.ok (.word w)))) ∧
      exec (.regWrite reg vs) s = .next
        { answered s (.ok .none) with
          statusRaw := if s.config.overlayWriteStatus then some rx.b0 else s.statusRaw
          status := if s.config.overlayWriteStatus then some (statusFlags s.config.statusLayout rx.b0) else s.status
          txBuf := writeFrame (registerAddr s r) (toBytes w)
          rxBuf := rx
          xlog := s.xlog ++ [.exchange (writeFrame (registerAddr s r) (toBytes w)) (.response rx)]
          environment := .draws rest
          remotePipeline := some (writeFrame (registerAddr s r) (toBytes w))
          drawn := s.drawn + 1 }

/-- 41_register R140: REG_GET returns the cached Value; and it raises NotFoundError, in this order, for an
unknown register, for a name the register does not declare, and for a register never read. -/
def Obligations.RegGetReadsTheCache : Prop :=
  ∀ (s : State) (reg : RegRef) (name : String), s.closed = false →
    (resolve s.config.table reg = none →
      exec (.regGet reg name) s = .next (answered s (.err (.notFoundRegister reg)))) ∧
    ∀ r, resolve s.config.table reg = some r →
      (name ∉ fieldNames (registerFields s r) →
        exec (.regGet reg name) s = .next (answered s (.err (.notFoundFields r [name])))) ∧
      (name ∈ fieldNames (registerFields s r) → cacheEntry s r = none →
        exec (.regGet reg name) s = .next (answered s (.err (.notFoundUnread r)))) ∧
      (∀ m v, name ∈ fieldNames (registerFields s r) → cacheEntry s r = some m → m.lookup name = some v →
        exec (.regGet reg name) s = .next (answered s (.ok (.value v))))

/-- 41_register R130, R132, R140 together: REG_GET after a REG_READ gives the field's bits of the word that
the second response carried. -/
def Obligations.ReadThenGetGivesTheField : Prop :=
  ∀ (s : State) (reg : RegRef) (r : Nat) (f : FieldSpec) (r0 r1 : Frame) (rest : List ExchangeOutcome),
    Inv s → s.closed = false → resolve s.config.table reg = some r → f ∈ registerFields s r →
    s.environment = .draws (.response r0 :: .response r1 :: rest) →
    ∃ t, exec (.regRead reg) s = .next t ∧
      exec (.regGet reg f.name) t = .next (answered t (.ok (.value
        (match f.kind with
          | .boolean => .bool (wordBits (fromBytes ⟨r1.b1, r1.b2, r1.b3, r1.b4⟩) f != 0)
          | .uint => .uint (wordBits (fromBytes ⟨r1.b1, r1.b2, r1.b3, r1.b4⟩) f)))))

/-- 41_register R138: REG_WRITE does not write `Cache`, and after it REG_GET of any register and field answers
as it did before the write, however the write ended. -/
def Obligations.WriteDoesNotChangeWhatGetReturns : Prop :=
  ∀ (s t : State) (reg reg' : RegRef) (vs : Values) (name : String),
    exec (.regWrite reg vs) s = .next t →
    t.cache = s.cache ∧ ∃ res, exec (.regGet reg' name) s = .next (answered s res) ∧
      exec (.regGet reg' name) t = .next (answered t res)

/-- 70_reset R236, the stale-merge hazard: a second REG_WRITE of the register, with no REG_READ between, sends
the very frame it would send without the first one. -/
def Obligations.StaleMergeForgetsTheFirstWrite : Prop :=
  ∀ (s : State) (reg : RegRef) (r : Nat) (vs1 vs2 : Values) (x y : Frame) (rest : List ExchangeOutcome),
    s.closed = false → resolve s.config.table reg = some r →
    s.environment = .draws (.response x :: .response y :: rest) →
    (∀ vs, vs = vs1 ∨ vs = vs2 →
      (∀ k ∈ keys vs, k ∈ fieldNames (registerFields s r)) ∧
      (∀ f ∈ registerFields s r, f.access = .ro → f.name ∉ keys vs) ∧
      inRange (mergeValues vs (mergeBase s r)) (registerFields s r)) →
    ∃ t u v, exec (.regWrite reg vs1) s = .next t ∧ exec (.regWrite reg vs2) t = .next u ∧
      exec (.regWrite reg vs2) s = .next v ∧ u.txBuf = v.txBuf ∧
      ∃ tx, u.xlog = t.xlog ++ [.exchange tx (.response y)] ∧ v.xlog = s.xlog ++ [.exchange tx (.response x)]

/-- 41_register R143, 70_reset R239: a boolean field that is cached is written back as 0 or 1 by a REG_WRITE
that does not name it, whatever its width: cached as `true`, the word sent has bit `lsb` of the field set and
its other bits clear (for a register whose bit ranges are disjoint). -/
def Obligations.BooleanWritesBackAsZeroOrOne : Prop :=
  ∀ (s : State) (reg : RegRef) (r : Nat) (f : FieldSpec) (m : Values) (b : Bool) (vs : Values) (rx : Frame)
      (rest : List ExchangeOutcome),
    s.config.wf = true → s.closed = false → resolve s.config.table reg = some r →
    disjointFields (registerFields s r) → f ∈ registerFields s r → f.access = .rw →
    cacheEntry s r = some m → m.lookup f.name = some (.bool b) → f.name ∉ keys vs →
    (∀ k ∈ keys vs, k ∈ fieldNames (registerFields s r)) →
    (∀ g ∈ registerFields s r, g.access = .ro → g.name ∉ keys vs) →
    inRange (mergeValues vs (mergeBase s r)) (registerFields s r) →
    s.environment = .draws (.response rx :: rest) →
    ∃ t w, exec (.regWrite reg vs) s = .next t ∧ t.txBuf = writeFrame (registerAddr s r) (toBytes w) ∧
      wordBits w f = if b then 1 else 0

/-! ### Status -/

/-- 42_status_overlay R150, R151, R154: STATUS_UPDATE gives each flag of the layout its bit, the four fixed
ones among them, names no other flag, and writes nothing but its result. -/
def Obligations.StatusUpdateGivesTheNamedBits : Prop :=
  ∀ (s : State) (b : Byte), layoutWf s.config.statusLayout = true →
    ∃ m : Flags, exec (.statusUpdate b) s = .next (answered s (.ok (.flags m))) ∧
      (∀ p ∈ s.config.statusLayout, m.lookup p.name = some (b.getLsbD p.bit)) ∧
      (∀ n, (m.lookup n).isSome = true → ∃ p ∈ s.config.statusLayout, p.name = n) ∧
      m.lookup "reset_flag" = some (b.getLsbD 0) ∧ m.lookup "driver_error" = some (b.getLsbD 1) ∧
      m.lookup "sg2" = some (b.getLsbD 2) ∧ m.lookup "standstill" = some (b.getLsbD 3)

/-- 44_register_map R185: GET_STATUS answers with the snapshot, absent before the first one, raises
ClosedError on a closed block, and writes nothing but its result. -/
def Obligations.GetStatusAnswersTheSnapshot : Prop :=
  ∀ (s : State),
    (s.closed = true → exec .getStatus s = .next (answered s (.err (.closed .getStatus)))) ∧
    (s.closed = false → s.status = none →
      exec .getStatus s = .next (answered s (.ok (.snapshot false none none)))) ∧
    (∀ m, s.closed = false → s.status = some m →
      exec .getStatus s = .next (answered s (.ok (.snapshot true (some m) s.statusRaw))))

/-! ### The register map -/

/-- 44_register_map R181: LOOKUP returns the index of the register of that name, and raises NotFoundError
where there is none; nothing but the result changes. -/
def Obligations.LookupFindsTheNamedRegister : Prop :=
  ∀ (s : State) (name : String), s.closed = false → tableWf s.config.table = true →
    (∀ r R, s.config.table[r]? = some R → R.name = name →
      exec (.lookup name) s = .next (answered s (.ok (.register r)))) ∧
    ((∀ R ∈ s.config.table, R.name ≠ name) →
      exec (.lookup name) s = .next (answered s (.err (.notFoundRegister (.name name)))))

/-- 44_register_map R182, R183: READ_ALL reads every register once, in table order, each by its own two
exchanges; afterwards each entry is decoded from its own second response, and `Status` is the last one's,
or as it was where the table is empty. -/
def Obligations.ReadAllReadsTheTableInOrder : Prop :=
  ∀ (s : State) (ps : List (Frame × Frame)) (rest : List ExchangeOutcome),
    s.closed = false → s.cache.length = s.config.table.length → ps.length = s.config.table.length →
    s.environment = .draws (readAnswers ps ++ rest) →
    ∃ t, exec .readAll s = .next t ∧ t.results = s.results ++ [.ok .none] ∧ t.phase = .idle ∧
      t.xlog = s.xlog ++ readEntries s 0 ps ∧ t.environment = .draws rest ∧
      t.cache.length = s.cache.length ∧
      (∀ r p, ps[r]? = some p →
        t.cache[r]? = some (some (decodeFields (fromBytes p.2.data) (registerFields s r)))) ∧
      (match ps.getLast? with
        | none => t.status = s.status ∧ t.statusRaw = s.statusRaw
        | some p => t.statusRaw = some p.2.b0 ∧ t.status = some (statusFlags s.config.statusLayout p.2.b0)) ∧
      t.closed = s.closed ∧ t.config = s.config ∧ t.pending = s.pending

/-- 44_register_map R184: where register `k`'s read fails, at its first or its second exchange, READ_ALL stops
with that error; the registers before `k` keep what they were read with, `k` and those after it are
unchanged, and `Status` and the buffers are as register `k-1`'s read left them, or as they were for `k = 0`. That
the error records the operation REG_READ (entry 10), and that the failing read writes no buffer (entry 9), are the
model's inferences. -/
def Obligations.ReadAllStopsAtTheFirstError : Prop :=
  ∀ (s : State) (ps : List (Frame × Frame)) (head : List Frame) (rest : List ExchangeOutcome),
    s.closed = false → s.cache.length = s.config.table.length → ps.length < s.config.table.length →
    head.length ≤ 1 →
    s.environment = .draws (readAnswers ps ++ head.map .response ++ .transportError :: rest) →
    ∃ t, exec .readAll s = .next t ∧
      t.results = s.results ++ [.err (.transport .regRead (head.length + 1)
        (if head = [] then readFrame (registerAddr s ps.length) else .zero))] ∧ t.phase = .idle ∧
      t.xlog = s.xlog ++ readEntries s 0 ps ++
        (head.map fun x => LogEntry.exchange (readFrame (registerAddr s ps.length)) (.response x)) ++
        [.exchange (if head = [] then readFrame (registerAddr s ps.length) else .zero) .transportError] ∧
      t.environment = .draws rest ∧
      (∀ r p, ps[r]? = some p →
        t.cache[r]? = some (some (decodeFields (fromBytes p.2.data) (registerFields s r)))) ∧
      (∀ r, ps.length ≤ r → t.cache[r]? = s.cache[r]?) ∧
      (match ps.getLast? with
        | none => t.status = s.status ∧ t.statusRaw = s.statusRaw ∧ t.txBuf = s.txBuf ∧ t.rxBuf = s.rxBuf
        | some p => t.statusRaw = some p.2.b0 ∧ t.status = some (statusFlags s.config.statusLayout p.2.b0) ∧
          t.txBuf = .zero ∧ t.rxBuf = p.2)

/-- 44_register_map R186: CLOSE of an open block makes the one transport call `close` and no exchange, and
sets `Closed`; `Cache` and `Status` stay as they were. -/
def Obligations.CloseReleasesTheTransport : Prop :=
  ∀ (s : State), s.closed = false →
    exec .close s = .next
      { answered s (.ok .none) with
        closed := true
        transportHeld := false
        xlog := s.xlog ++ [.close] }

/-! ### Construction and the invariant -/

/-- 10_state R28, R43, 44_register_map R180: construction refuses an ill-formed configuration, and otherwise
gives the reset state: nothing read, no status, open, IDLE, an empty log. -/
def Obligations.ConstructionGivesTheResetState : Prop :=
  ∀ c : Configuration,
    (c.wf = false → construct c = .refused .illFormedConfiguration) ∧
    (c.wf = true → ∃ s, construct c = .next s ∧ s.config = c ∧
      (∀ r, r < c.table.length → s.cache[r]? = some none) ∧ s.cache.length = c.table.length ∧
      s.status = none ∧ s.statusRaw = none ∧ s.closed = false ∧ s.phase = .idle ∧ s.xlog = [])

/-- The machine's own reset state is one that construction gives, and meets the invariant (its variant is free,
entry 11; its buffers and its settled answers are the model's choice, entries 8 and 6). -/
def Obligations.ResetMeetsTheInvariant : Prop :=
  construct Config.session = .next State.reset ∧ Inv State.reset

/-- Every state that construction gives meets the invariant. -/
def Obligations.ConstructionMeetsTheInvariant : Prop :=
  ∀ (c : Configuration) (s : State), construct c = .next s → Inv s

/-- The invariant of a session, kept by every step: the configuration is well formed (10_state R28), each
cache entry is a map decoded from one word (R29), `Status` is decoded from `StatusRaw` (R32), the transport is
held until CLOSE (R34), only legal frames were emitted (30_encoding R85), the log ends at `close`
(44_register_map R187), and only an exchange that never returned keeps the block busy (10_state R35). -/
def Obligations.EveryStepKeepsTheInvariant : Prop :=
  ∀ s t : State, Inv s → step s = .next t → Inv t
end

