-- ==== Sys2Proof/Laws/State.lean ====
section
/-! SUPPORT. What each update of State leaves in each field: one lemma per field per update. -/

namespace Sys2Proof.Machine

@[simp] theorem State.setPhase_config (p : Phase) (s : State) : (s.setPhase p).config = s.config := rfl
@[simp] theorem State.setPhase_cache (p : Phase) (s : State) : (s.setPhase p).cache = s.cache := rfl
@[simp] theorem State.setPhase_status (p : Phase) (s : State) : (s.setPhase p).status = s.status := rfl
@[simp] theorem State.setPhase_statusRaw (p : Phase) (s : State) : (s.setPhase p).statusRaw = s.statusRaw := rfl
@[simp] theorem State.setPhase_closed (p : Phase) (s : State) : (s.setPhase p).closed = s.closed := rfl
@[simp] theorem State.setPhase_transportHeld (p : Phase) (s : State) : (s.setPhase p).transportHeld = s.transportHeld := rfl
@[simp] theorem State.setPhase_phase (p : Phase) (s : State) : (s.setPhase p).phase = p := rfl
@[simp] theorem State.setPhase_txBuf (p : Phase) (s : State) : (s.setPhase p).txBuf = s.txBuf := rfl
@[simp] theorem State.setPhase_rxBuf (p : Phase) (s : State) : (s.setPhase p).rxBuf = s.rxBuf := rfl
@[simp] theorem State.setPhase_xlog (p : Phase) (s : State) : (s.setPhase p).xlog = s.xlog := rfl
@[simp] theorem State.setPhase_results (p : Phase) (s : State) : (s.setPhase p).results = s.results := rfl
@[simp] theorem State.setPhase_pending (p : Phase) (s : State) : (s.setPhase p).pending = s.pending := rfl
@[simp] theorem State.setPhase_environment (p : Phase) (s : State) : (s.setPhase p).environment = s.environment := rfl
@[simp] theorem State.setPhase_remotePipeline (p : Phase) (s : State) : (s.setPhase p).remotePipeline = s.remotePipeline := rfl
@[simp] theorem State.setPhase_drawn (p : Phase) (s : State) : (s.setPhase p).drawn = s.drawn := rfl

@[simp] theorem State.setRx_config (f : Frame) (s : State) : (s.setRx f).config = s.config := rfl
@[simp] theorem State.setRx_cache (f : Frame) (s : State) : (s.setRx f).cache = s.cache := rfl
@[simp] theorem State.setRx_status (f : Frame) (s : State) : (s.setRx f).status = s.status := rfl
@[simp] theorem State.setRx_statusRaw (f : Frame) (s : State) : (s.setRx f).statusRaw = s.statusRaw := rfl
@[simp] theorem State.setRx_closed (f : Frame) (s : State) : (s.setRx f).closed = s.closed := rfl
@[simp] theorem State.setRx_transportHeld (f : Frame) (s : State) : (s.setRx f).transportHeld = s.transportHeld := rfl
@[simp] theorem State.setRx_phase (f : Frame) (s : State) : (s.setRx f).phase = s.phase := rfl
@[simp] theorem State.setRx_txBuf (f : Frame) (s : State) : (s.setRx f).txBuf = s.txBuf := rfl
@[simp] theorem State.setRx_rxBuf (f : Frame) (s : State) : (s.setRx f).rxBuf = f := rfl
@[simp] theorem State.setRx_xlog (f : Frame) (s : State) : (s.setRx f).xlog = s.xlog := rfl
@[simp] theorem State.setRx_results (f : Frame) (s : State) : (s.setRx f).results = s.results := rfl
@[simp] theorem State.setRx_pending (f : Frame) (s : State) : (s.setRx f).pending = s.pending := rfl
@[simp] theorem State.setRx_environment (f : Frame) (s : State) : (s.setRx f).environment = s.environment := rfl
@[simp] theorem State.setRx_remotePipeline (f : Frame) (s : State) : (s.setRx f).remotePipeline = s.remotePipeline := rfl
@[simp] theorem State.setRx_drawn (f : Frame) (s : State) : (s.setRx f).drawn = s.drawn := rfl

@[simp] theorem State.restoreBuffers_config (s old : State) : (s.restoreBuffers old).config = s.config := rfl
@[simp] theorem State.restoreBuffers_cache (s old : State) : (s.restoreBuffers old).cache = s.cache := rfl
@[simp] theorem State.restoreBuffers_status (s old : State) : (s.restoreBuffers old).status = s.status := rfl
@[simp] theorem State.restoreBuffers_statusRaw (s old : State) : (s.restoreBuffers old).statusRaw = s.statusRaw := rfl
@[simp] theorem State.restoreBuffers_closed (s old : State) : (s.restoreBuffers old).closed = s.closed := rfl
@[simp] theorem State.restoreBuffers_transportHeld (s old : State) : (s.restoreBuffers old).transportHeld = s.transportHeld := rfl
@[simp] theorem State.restoreBuffers_phase (s old : State) : (s.restoreBuffers old).phase = s.phase := rfl
@[simp] theorem State.restoreBuffers_txBuf (s old : State) : (s.restoreBuffers old).txBuf = old.txBuf := rfl
@[simp] theorem State.restoreBuffers_rxBuf (s old : State) : (s.restoreBuffers old).rxBuf = old.rxBuf := rfl
@[simp] theorem State.restoreBuffers_xlog (s old : State) : (s.restoreBuffers old).xlog = s.xlog := rfl
@[simp] theorem State.restoreBuffers_results (s old : State) : (s.restoreBuffers old).results = s.results := rfl
@[simp] theorem State.restoreBuffers_pending (s old : State) : (s.restoreBuffers old).pending = s.pending := rfl
@[simp] theorem State.restoreBuffers_environment (s old : State) : (s.restoreBuffers old).environment = s.environment := rfl
@[simp] theorem State.restoreBuffers_remotePipeline (s old : State) : (s.restoreBuffers old).remotePipeline = s.remotePipeline := rfl
@[simp] theorem State.restoreBuffers_drawn (s old : State) : (s.restoreBuffers old).drawn = s.drawn := rfl

@[simp] theorem State.addResult_config (r : Result) (s : State) : (s.addResult r).config = s.config := rfl
@[simp] theorem State.addResult_cache (r : Result) (s : State) : (s.addResult r).cache = s.cache := rfl
@[simp] theorem State.addResult_status (r : Result) (s : State) : (s.addResult r).status = s.status := rfl
@[simp] theorem State.addResult_statusRaw (r : Result) (s : State) : (s.addResult r).statusRaw = s.statusRaw := rfl
@[simp] theorem State.addResult_closed (r : Result) (s : State) : (s.addResult r).closed = s.closed := rfl
@[simp] theorem State.addResult_transportHeld (r : Result) (s : State) : (s.addResult r).transportHeld = s.transportHeld := rfl
@[simp] theorem State.addResult_phase (r : Result) (s : State) : (s.addResult r).phase = s.phase := rfl
@[simp] theorem State.addResult_txBuf (r : Result) (s : State) : (s.addResult r).txBuf = s.txBuf := rfl
@[simp] theorem State.addResult_rxBuf (r : Result) (s : State) : (s.addResult r).rxBuf = s.rxBuf := rfl
@[simp] theorem State.addResult_xlog (r : Result) (s : State) : (s.addResult r).xlog = s.xlog := rfl
@[simp] theorem State.addResult_results (r : Result) (s : State) : (s.addResult r).results = s.results ++ [r] := rfl
@[simp] theorem State.addResult_pending (r : Result) (s : State) : (s.addResult r).pending = s.pending := rfl
@[simp] theorem State.addResult_environment (r : Result) (s : State) : (s.addResult r).environment = s.environment := rfl
@[simp] theorem State.addResult_remotePipeline (r : Result) (s : State) : (s.addResult r).remotePipeline = s.remotePipeline := rfl
@[simp] theorem State.addResult_drawn (r : Result) (s : State) : (s.addResult r).drawn = s.drawn := rfl

@[simp] theorem State.setCache_config (r : Nat) (m : Values) (s : State) : (s.setCache r m).config = s.config := rfl
@[simp] theorem State.setCache_cache (r : Nat) (m : Values) (s : State) : (s.setCache r m).cache = s.cache.set r (some m) := rfl
@[simp] theorem State.setCache_status (r : Nat) (m : Values) (s : State) : (s.setCache r m).status = s.status := rfl
@[simp] theorem State.setCache_statusRaw (r : Nat) (m : Values) (s : State) : (s.setCache r m).statusRaw = s.statusRaw := rfl
@[simp] theorem State.setCache_closed (r : Nat) (m : Values) (s : State) : (s.setCache r m).closed = s.closed := rfl
@[simp] theorem State.setCache_transportHeld (r : Nat) (m : Values) (s : State) : (s.setCache r m).transportHeld = s.transportHeld := rfl
@[simp] theorem State.setCache_phase (r : Nat) (m : Values) (s : State) : (s.setCache r m).phase = s.phase := rfl
@[simp] theorem State.setCache_txBuf (r : Nat) (m : Values) (s : State) : (s.setCache r m).txBuf = s.txBuf := rfl
@[simp] theorem State.setCache_rxBuf (r : Nat) (m : Values) (s : State) : (s.setCache r m).rxBuf = s.rxBuf := rfl
@[simp] theorem State.setCache_xlog (r : Nat) (m : Values) (s : State) : (s.setCache r m).xlog = s.xlog := rfl
@[simp] theorem State.setCache_results (r : Nat) (m : Values) (s : State) : (s.setCache r m).results = s.results := rfl
@[simp] theorem State.setCache_pending (r : Nat) (m : Values) (s : State) : (s.setCache r m).pending = s.pending := rfl
@[simp] theorem State.setCache_environment (r : Nat) (m : Values) (s : State) : (s.setCache r m).environment = s.environment := rfl
@[simp] theorem State.setCache_remotePipeline (r : Nat) (m : Values) (s : State) : (s.setCache r m).remotePipeline = s.remotePipeline := rfl
@[simp] theorem State.setCache_drawn (r : Nat) (m : Values) (s : State) : (s.setCache r m).drawn = s.drawn := rfl

@[simp] theorem State.overlay_config (b : Byte) (s : State) : (s.overlay b).config = s.config := rfl
@[simp] theorem State.overlay_cache (b : Byte) (s : State) : (s.overlay b).cache = s.cache := rfl
@[simp] theorem State.overlay_status (b : Byte) (s : State) : (s.overlay b).status = some (statusFlags s.config.statusLayout b) := rfl
@[simp] theorem State.overlay_statusRaw (b : Byte) (s : State) : (s.overlay b).statusRaw = some b := rfl
@[simp] theorem State.overlay_closed (b : Byte) (s : State) : (s.overlay b).closed = s.closed := rfl
@[simp] theorem State.overlay_transportHeld (b : Byte) (s : State) : (s.overlay b).transportHeld = s.transportHeld := rfl
@[simp] theorem State.overlay_phase (b : Byte) (s : State) : (s.overlay b).phase = s.phase := rfl
@[simp] theorem State.overlay_txBuf (b : Byte) (s : State) : (s.overlay b).txBuf = s.txBuf := rfl
@[simp] theorem State.overlay_rxBuf (b : Byte) (s : State) : (s.overlay b).rxBuf = s.rxBuf := rfl
@[simp] theorem State.overlay_xlog (b : Byte) (s : State) : (s.overlay b).xlog = s.xlog := rfl
@[simp] theorem State.overlay_results (b : Byte) (s : State) : (s.overlay b).results = s.results := rfl
@[simp] theorem State.overlay_pending (b : Byte) (s : State) : (s.overlay b).pending = s.pending := rfl
@[simp] theorem State.overlay_environment (b : Byte) (s : State) : (s.overlay b).environment = s.environment := rfl
@[simp] theorem State.overlay_remotePipeline (b : Byte) (s : State) : (s.overlay b).remotePipeline = s.remotePipeline := rfl
@[simp] theorem State.overlay_drawn (b : Byte) (s : State) : (s.overlay b).drawn = s.drawn := rfl

@[simp] theorem State.release_config (s : State) : (s.release).config = s.config := rfl
@[simp] theorem State.release_cache (s : State) : (s.release).cache = s.cache := rfl
@[simp] theorem State.release_status (s : State) : (s.release).status = s.status := rfl
@[simp] theorem State.release_statusRaw (s : State) : (s.release).statusRaw = s.statusRaw := rfl
@[simp] theorem State.release_closed (s : State) : (s.release).closed = true := rfl
@[simp] theorem State.release_transportHeld (s : State) : (s.release).transportHeld = false := rfl
@[simp] theorem State.release_phase (s : State) : (s.release).phase = s.phase := rfl
@[simp] theorem State.release_txBuf (s : State) : (s.release).txBuf = s.txBuf := rfl
@[simp] theorem State.release_rxBuf (s : State) : (s.release).rxBuf = s.rxBuf := rfl
@[simp] theorem State.release_xlog (s : State) : (s.release).xlog = s.xlog ++ [.close] := rfl
@[simp] theorem State.release_results (s : State) : (s.release).results = s.results := rfl
@[simp] theorem State.release_pending (s : State) : (s.release).pending = s.pending := rfl
@[simp] theorem State.release_environment (s : State) : (s.release).environment = s.environment := rfl
@[simp] theorem State.release_remotePipeline (s : State) : (s.release).remotePipeline = s.remotePipeline := rfl
@[simp] theorem State.release_drawn (s : State) : (s.release).drawn = s.drawn := rfl

@[simp] theorem exchange_config (tx : Frame) (s : State) : (exchange tx s).2.config = s.config := rfl
@[simp] theorem exchange_cache (tx : Frame) (s : State) : (exchange tx s).2.cache = s.cache := rfl
@[simp] theorem exchange_status (tx : Frame) (s : State) : (exchange tx s).2.status = s.status := rfl
@[simp] theorem exchange_statusRaw (tx : Frame) (s : State) : (exchange tx s).2.statusRaw = s.statusRaw := rfl
@[simp] theorem exchange_closed (tx : Frame) (s : State) : (exchange tx s).2.closed = s.closed := rfl
@[simp] theorem exchange_transportHeld (tx : Frame) (s : State) : (exchange tx s).2.transportHeld = s.transportHeld := rfl
@[simp] theorem exchange_phase (tx : Frame) (s : State) : (exchange tx s).2.phase = s.phase := rfl
@[simp] theorem exchange_txBuf (tx : Frame) (s : State) : (exchange tx s).2.txBuf = tx := rfl
@[simp] theorem exchange_rxBuf (tx : Frame) (s : State) : (exchange tx s).2.rxBuf = rxAfter (exchange tx s).1 s.rxBuf := rfl
@[simp] theorem exchange_xlog (tx : Frame) (s : State) : (exchange tx s).2.xlog = s.xlog ++ [.exchange tx (exchange tx s).1] := rfl
@[simp] theorem exchange_results (tx : Frame) (s : State) : (exchange tx s).2.results = s.results := rfl
@[simp] theorem exchange_pending (tx : Frame) (s : State) : (exchange tx s).2.pending = s.pending := rfl
@[simp] theorem exchange_environment (tx : Frame) (s : State) : (exchange tx s).2.environment = (answer tx s).2 := rfl
@[simp] theorem exchange_remotePipeline (tx : Frame) (s : State) : (exchange tx s).2.remotePipeline = pipelineAfter tx (exchange tx s).1 s.remotePipeline := rfl
@[simp] theorem exchange_drawn (tx : Frame) (s : State) : (exchange tx s).2.drawn = s.drawn + 1 := rfl

@[simp] theorem takeError_config (e : Error) (s : State) : (takeError e s).config = s.config := rfl
@[simp] theorem takeError_cache (e : Error) (s : State) : (takeError e s).cache = s.cache := rfl
@[simp] theorem takeError_status (e : Error) (s : State) : (takeError e s).status = s.status := rfl
@[simp] theorem takeError_statusRaw (e : Error) (s : State) : (takeError e s).statusRaw = s.statusRaw := rfl
@[simp] theorem takeError_closed (e : Error) (s : State) : (takeError e s).closed = s.closed := rfl
@[simp] theorem takeError_transportHeld (e : Error) (s : State) : (takeError e s).transportHeld = s.transportHeld := rfl
@[simp] theorem takeError_phase (e : Error) (s : State) : (takeError e s).phase = .idle := rfl
@[simp] theorem takeError_txBuf (e : Error) (s : State) : (takeError e s).txBuf = s.txBuf := rfl
@[simp] theorem takeError_rxBuf (e : Error) (s : State) : (takeError e s).rxBuf = s.rxBuf := rfl
@[simp] theorem takeError_xlog (e : Error) (s : State) : (takeError e s).xlog = s.xlog := rfl
@[simp] theorem takeError_results (e : Error) (s : State) : (takeError e s).results = s.results ++ [.err e] := rfl
@[simp] theorem takeError_pending (e : Error) (s : State) : (takeError e s).pending = s.pending := rfl
@[simp] theorem takeError_environment (e : Error) (s : State) : (takeError e s).environment = s.environment := rfl
@[simp] theorem takeError_remotePipeline (e : Error) (s : State) : (takeError e s).remotePipeline = s.remotePipeline := rfl
@[simp] theorem takeError_drawn (e : Error) (s : State) : (takeError e s).drawn = s.drawn := rfl

@[simp] theorem giveOk_config (p : Payload) (s : State) : (giveOk p s).config = s.config := rfl
@[simp] theorem giveOk_cache (p : Payload) (s : State) : (giveOk p s).cache = s.cache := rfl
@[simp] theorem giveOk_status (p : Payload) (s : State) : (giveOk p s).status = s.status := rfl
@[simp] theorem giveOk_statusRaw (p : Payload) (s : State) : (giveOk p s).statusRaw = s.statusRaw := rfl
@[simp] theorem giveOk_closed (p : Payload) (s : State) : (giveOk p s).closed = s.closed := rfl
@[simp] theorem giveOk_transportHeld (p : Payload) (s : State) : (giveOk p s).transportHeld = s.transportHeld := rfl
@[simp] theorem giveOk_phase (p : Payload) (s : State) : (giveOk p s).phase = .idle := rfl
@[simp] theorem giveOk_txBuf (p : Payload) (s : State) : (giveOk p s).txBuf = s.txBuf := rfl
@[simp] theorem giveOk_rxBuf (p : Payload) (s : State) : (giveOk p s).rxBuf = s.rxBuf := rfl
@[simp] theorem giveOk_xlog (p : Payload) (s : State) : (giveOk p s).xlog = s.xlog := rfl
@[simp] theorem giveOk_results (p : Payload) (s : State) : (giveOk p s).results = s.results ++ [.ok p] := rfl
@[simp] theorem giveOk_pending (p : Payload) (s : State) : (giveOk p s).pending = s.pending := rfl
@[simp] theorem giveOk_environment (p : Payload) (s : State) : (giveOk p s).environment = s.environment := rfl
@[simp] theorem giveOk_remotePipeline (p : Payload) (s : State) : (giveOk p s).remotePipeline = s.remotePipeline := rfl
@[simp] theorem giveOk_drawn (p : Payload) (s : State) : (giveOk p s).drawn = s.drawn := rfl

@[simp] theorem answered_config (s : State) (r : Result) : (answered s r).config = s.config := rfl
@[simp] theorem answered_cache (s : State) (r : Result) : (answered s r).cache = s.cache := rfl
@[simp] theorem answered_status (s : State) (r : Result) : (answered s r).status = s.status := rfl
@[simp] theorem answered_statusRaw (s : State) (r : Result) : (answered s r).statusRaw = s.statusRaw := rfl
@[simp] theorem answered_closed (s : State) (r : Result) : (answered s r).closed = s.closed := rfl
@[simp] theorem answered_transportHeld (s : State) (r : Result) : (answered s r).transportHeld = s.transportHeld := rfl
@[simp] theorem answered_phase (s : State) (r : Result) : (answered s r).phase = .idle := rfl
@[simp] theorem answered_txBuf (s : State) (r : Result) : (answered s r).txBuf = s.txBuf := rfl
@[simp] theorem answered_rxBuf (s : State) (r : Result) : (answered s r).rxBuf = s.rxBuf := rfl
@[simp] theorem answered_xlog (s : State) (r : Result) : (answered s r).xlog = s.xlog := rfl
@[simp] theorem answered_results (s : State) (r : Result) : (answered s r).results = s.results ++ [r] := rfl
@[simp] theorem answered_pending (s : State) (r : Result) : (answered s r).pending = s.pending := rfl
@[simp] theorem answered_environment (s : State) (r : Result) : (answered s r).environment = s.environment := rfl
@[simp] theorem answered_remotePipeline (s : State) (r : Result) : (answered s r).remotePipeline = s.remotePipeline := rfl
@[simp] theorem answered_drawn (s : State) (r : Result) : (answered s r).drawn = s.drawn := rfl

@[simp] theorem State.withFetchWord_config (s : State) (nbits w : Nat) : (s.withFetchWord nbits w).config = s.config := rfl
@[simp] theorem State.withFetchWord_cache (s : State) (nbits w : Nat) : (s.withFetchWord nbits w).cache = s.cache := rfl
@[simp] theorem State.withFetchWord_status (s : State) (nbits w : Nat) : (s.withFetchWord nbits w).status = s.status := rfl
@[simp] theorem State.withFetchWord_statusRaw (s : State) (nbits w : Nat) : (s.withFetchWord nbits w).statusRaw = s.statusRaw := rfl
@[simp] theorem State.withFetchWord_closed (s : State) (nbits w : Nat) : (s.withFetchWord nbits w).closed = s.closed := rfl
@[simp] theorem State.withFetchWord_transportHeld (s : State) (nbits w : Nat) : (s.withFetchWord nbits w).transportHeld = s.transportHeld := rfl
@[simp] theorem State.withFetchWord_phase (s : State) (nbits w : Nat) : (s.withFetchWord nbits w).phase = .idle := rfl
@[simp] theorem State.withFetchWord_txBuf (s : State) (nbits w : Nat) : (s.withFetchWord nbits w).txBuf = s.txBuf := rfl
@[simp] theorem State.withFetchWord_rxBuf (s : State) (nbits w : Nat) : (s.withFetchWord nbits w).rxBuf = s.rxBuf := rfl
@[simp] theorem State.withFetchWord_xlog (s : State) (nbits w : Nat) : (s.withFetchWord nbits w).xlog = s.xlog := rfl
@[simp] theorem State.withFetchWord_results (s : State) (nbits w : Nat) : (s.withFetchWord nbits w).results = s.results := rfl
@[simp] theorem State.withFetchWord_pending (s : State) (nbits w : Nat) : (s.withFetchWord nbits w).pending = tableRequest nbits w :: s.pending := rfl
@[simp] theorem State.withFetchWord_environment (s : State) (nbits w : Nat) : (s.withFetchWord nbits w).environment = s.environment := rfl
@[simp] theorem State.withFetchWord_remotePipeline (s : State) (nbits w : Nat) : (s.withFetchWord nbits w).remotePipeline = s.remotePipeline := rfl
@[simp] theorem State.withFetchWord_drawn (s : State) (nbits w : Nat) : (s.withFetchWord nbits w).drawn = s.drawn := rfl

end Sys2Proof.Machine
end

