-- ==== Sys2Proof/Laws/Codec.lean ====
section
/-! SUPPORT. What the field arithmetic, the codec and the value maps do, said once. -/

namespace Sys2Proof.Machine

open Sys2Proof

/-! ### Maps as lists -/

/-- A map built from distinct keys holds each key's value. -/
theorem lookup_map_of_mem {α β : Type} (key : α → String) (g : α → β) (l : List α)
    (h : (l.map key).Nodup) (a : α) (ha : a ∈ l) :
    (l.map fun x => (key x, g x)).lookup (key a) = some (g a) := by
  induction l with
  | nil => cases ha
  | cons b l ih =>
    simp only [List.map_cons, List.nodup_cons] at h
    rw [List.map_cons, List.lookup_cons]
    rcases List.mem_cons.1 ha with rfl | ha
    · simp
    · have hne : key a ≠ key b := fun e => h.1 (e ▸ List.mem_map_of_mem ha)
      have hb : (key a == key b) = false := beq_false_of_ne hne
      simp only [hb, ih h.2 ha]

/-- A key that a map does not list is absent. -/
theorem lookup_none_of_not_mem {β : Type} {k : String} {l : List (String × β)} (h : k ∉ l.map Prod.fst) : l.lookup k = none := by
  induction l with
  | nil => rfl
  | cons p l ih =>
    simp only [List.map_cons, List.mem_cons, not_or] at h
    rw [show p = (p.1, p.2) from rfl, List.lookup_cons]
    have hb : (k == p.1) = false := beq_false_of_ne h.1
    simp only [hb, ih h.2]

/-- A key that a map lists is present. -/
theorem lookup_some_of_mem {β : Type} {k : String} {l : List (String × β)} (h : k ∈ l.map Prod.fst) : ∃ v, l.lookup k = some v := by
  induction l with
  | nil => cases h
  | cons p l ih =>
    rw [show p = (p.1, p.2) from rfl, List.lookup_cons]
    by_cases hk : k = p.1
    · exact ⟨p.2, by simp [hk]⟩
    · simp only [List.map_cons, List.mem_cons, hk, false_or] at h
      obtain ⟨v, hv⟩ := ih h
      exact ⟨v, by have hb : (k == p.1) = false := beq_false_of_ne hk
                   simp only [hb, hv]⟩

/-- The first of two joined maps overrides the second. -/
theorem lookup_append {β : Type} (a b : List (String × β)) (k : String) : (a ++ b).lookup k = (a.lookup k).or (b.lookup k) := by
  induction a with
  | nil => simp
  | cons p a ih =>
    rw [show p = (p.1, p.2) from rfl, List.cons_append, List.lookup_cons, List.lookup_cons]
    cases k == p.1 <;> simp [ih]

/-- A filter on keys keeps what it lets through. -/
theorem lookup_filter_keys {β : Type} (p : String → Bool) (l : List (String × β)) (k : String) (h : p k = true) :
   (l.filter fun x => p x.1).lookup k = l.lookup k := by
  induction l with
  | nil => rfl
  | cons x l ih =>
    rw [List.filter_cons]
    by_cases hk : k = x.1
    · subst hk; simp only [h, if_true]; rw [show x = (x.1, x.2) from rfl, List.lookup_cons, List.lookup_cons]; simp
    · have hb : (k == x.1) = false := beq_false_of_ne hk
      rw [show x = (x.1, x.2) from rfl, List.lookup_cons, hb]
      split
      · rw [List.lookup_cons, hb]; exact ih
      · exact ih

/-- The merged map of 41_register R134: `values` overrides the base. -/
theorem merge_lookup (vs base : Values) (k : String) : (mergeValues vs base).lookup k = (vs.lookup k).or (base.lookup k) := by
  rw [mergeValues, lookup_append]
  cases hv : vs.lookup k with
  | some v => rfl
  | none =>
    simp only [Option.none_or]
    apply lookup_filter_keys (fun k => decide (k ∉ keys vs))
    simp only [decide_eq_true_eq]
    intro hk
    obtain ⟨v, h⟩ := lookup_some_of_mem hk
    rw [hv] at h; cases h

/-- The set `U` of 41_register R134. -/
theorem unknownKeys_mem {fs vs k} : k ∈ unknownKeys fs vs ↔ k ∈ keys vs ∧ k ∉ fieldNames fs := by
  simp [unknownKeys]

/-- The set `A` of 41_register R134. -/
theorem readOnlyKeys_mem {fs vs k} : k ∈ readOnlyKeys fs vs ↔ ∃ f ∈ fs, f.name = k ∧ f.access = .ro ∧ k ∈ keys vs := by
  simp only [readOnlyKeys, fieldNames, List.mem_map, List.mem_filter, Bool.and_eq_true, beq_iff_eq, decide_eq_true_eq]
  constructor
  · rintro ⟨f, ⟨hf, h1, h2⟩, rfl⟩; exact ⟨f, hf, rfl, h1, h2⟩
  · rintro ⟨f, hf, rfl, h1, h2⟩; exact ⟨f, ⟨hf, h1, h2⟩, rfl⟩

/-! ### Well-formed fields -/

/-- The field names of a well-formed list are distinct (10_state R23). -/
theorem names_nodup {fs : List FieldSpec} (h : fieldsWf fs = true) : (fieldNames fs).Nodup := by
  simp only [fieldsWf, Bool.and_eq_true, decide_eq_true_eq] at h; exact h.2

/-- Each field of a well-formed list is well formed (10_state R22). -/
theorem field_wf {fs : List FieldSpec} (h : fieldsWf fs = true) {f : FieldSpec} (hf : f ∈ fs) : f.wf = true := by
  simp only [fieldsWf, Bool.and_eq_true, List.all_eq_true] at h; exact h.1 f hf

/-- 10_state R22 as inequalities. -/
theorem wf_bounds {f : FieldSpec} (h : f.wf = true) : f.msbIndex ≤ 31 ∧ 1 ≤ f.bitWidth ∧ f.bitWidth ≤ 32 ∧ f.bitWidth ≤ f.msbIndex + 1 := by
  simp only [FieldSpec.wf, Bool.and_eq_true, decide_eq_true_eq] at h; omega

/-- A `reg` operand resolves to an index of the table. -/
theorem mem_of_resolve {t ref r} (h : resolve t ref = some r) : r < t.length := by
  cases ref with
  | index n => simp only [resolve] at h; split at h <;> simp_all
  | name n =>
    simp only [resolve] at h
    exact (List.findIdx?_eq_some_iff_findIdx_eq.1 h).1

/-- In a well-formed configuration a register's field list is well formed. -/
theorem spec_wf {s : State} {r} (hw : s.config.wf = true) (hr : r < s.config.table.length) : fieldsWf (registerFields s r) = true := by
  have hm : registerSpec s r ∈ s.config.table := by
    simp [registerSpec, List.getD, hr]
  simp only [Configuration.wf, Bool.and_eq_true, tableWf, List.all_eq_true] at hw
  have := hw.1.1 _ hm
  simp only [RegisterSpec.wf, Bool.and_eq_true] at this
  exact this.2

/-- Two different fields of a list without overlap cover no common bit. -/
theorem disjoint_covers {fs : List FieldSpec} (hd : disjointFields fs) {f g : FieldSpec} (hf : f ∈ fs) (hg : g ∈ fs) (hne : f ≠ g) {i} (h1 : covers f i) (h2 : covers g i) : False := by
  unfold disjointFields at hd
  induction fs with
  | nil => cases hf
  | cons a fs ih =>
    rw [List.pairwise_cons] at hd
    rcases List.mem_cons.1 hf with rfl | hf' <;> rcases List.mem_cons.1 hg with rfl | hg'
    · exact hne rfl
    · exact hd.1 g hg' i ⟨h1, h2⟩
    · exact hd.1 f hf' i ⟨h2, h1⟩
    · exact ih hd.2 hf' hg'

/-- In a list without overlap the field that covers a bit is unique. -/
theorem fieldspec_inj {fs : List FieldSpec} (hd : disjointFields fs) {f g : FieldSpec} (hf : f ∈ fs) (hg : g ∈ fs) {i} (h1 : covers f i) (h2 : covers g i) : f = g := by
  by_contra hne
  exact disjoint_covers hd hf hg hne h1 h2

/-! ### DECODE -/

/-- `extract` gives the field's own bits of the word (40_codec R101). -/
theorem extract_eq_wordBits (w : Word) (f : FieldSpec) : extract w f = wordBits w f := by
  simp [extract, wordBits, mask, lsb, Nat.and_two_pow_sub_one_eq_mod]

/-- The bits of a field's value. -/
theorem wordBits_testBit (w : Word) (f : FieldSpec) (j : Nat) :
    (wordBits w f).testBit j = (decide (j < f.bitWidth) && w.getLsbD (f.msbIndex + 1 - f.bitWidth + j)) := by
  simp [wordBits, BitVec.testBit_toNat]

/-- A field's value depends on the bits it covers only. -/
theorem wordBits_congr {f : FieldSpec} (hf : f.wf = true) {w w' : Word} (h : ∀ i, covers f i → w.getLsbD i = w'.getLsbD i) :
    wordBits w f = wordBits w' f := by
  apply Nat.eq_of_testBit_eq; intro j
  rw [wordBits_testBit, wordBits_testBit]
  by_cases hj : j < f.bitWidth
  · have := wf_bounds hf
    rw [h _ (by constructor <;> omega)]
  · simp [hj]

/-- DECODE's map holds each field's value (40_codec R102). -/
theorem decodeFields_lookup {fs : List FieldSpec} (h : fieldsWf fs = true) (w : Word) {f : FieldSpec} (hf : f ∈ fs) :
    (decodeFields w fs).lookup f.name = some (decodeField w f) :=
  lookup_map_of_mem FieldSpec.name (decodeField w) fs (names_nodup h) f hf

/-- DECODE's map has one key per field (40_codec R102). -/
theorem keys_decodeFields (w : Word) (fs : List FieldSpec) : keys (decodeFields w fs) = fieldNames fs := by
  simp [keys, decodeFields, fieldNames, Function.comp_def]

/-! ### ENCODE -/

/-- The bits of a value shifted into its field. -/
theorem shifted_bit {f : FieldSpec} (hf : f.wf = true) {n : Nat} (hn : n < 2 ^ f.bitWidth) {i : Nat} (hi : i < 32) :
    (shifted f n).getLsbD i = true ↔ covers f i ∧ n.testBit (i + f.bitWidth - (f.msbIndex + 1)) = true := by
  have hb := wf_bounds hf
  simp only [shifted, BitVec.getLsbD_ofNat, hi, decide_true, Bool.true_and, Nat.testBit_shiftLeft, lsb, covers,
    Bool.and_eq_true, decide_eq_true_eq]
  constructor
  · rintro ⟨h1, h2⟩
    have h3 : i - (f.msbIndex + 1 - f.bitWidth) < f.bitWidth := by
      by_contra hc
      rw [Nat.testBit_lt_two_pow (lt_of_lt_of_le hn (Nat.pow_le_pow_right (by omega) (by omega)))] at h2; cases h2
    refine ⟨⟨by omega, by omega⟩, ?_⟩
    rw [← h2]; congr 1; omega
  · rintro ⟨⟨h1, h1'⟩, h2⟩
    refine ⟨by omega, ?_⟩
    rw [← h2]; congr 1; omega

/-- The mask of a field covers exactly its bits. -/
theorem mask_bit {f : FieldSpec} (hf : f.wf = true) {i : Nat} (hi : i < 32) :
    (shifted f (mask f.bitWidth)).getLsbD i = true ↔ covers f i := by
  have hp : 0 < 2 ^ f.bitWidth := Nat.two_pow_pos _
  rw [shifted_bit hf (by simp [mask]) hi]
  have hb := wf_bounds hf
  simp only [mask, Nat.testBit_two_pow_sub_one, decide_eq_true_eq, and_iff_left_iff_imp]
  rintro ⟨h1, h2⟩; omega

/-- What `last_wins` puts into the word (40_codec R111). -/
theorem place_last_bit {f : FieldSpec} (hf : f.wf = true) {n : Nat} (hn : n < 2 ^ f.bitWidth) (w : Word) {i : Nat} (hi : i < 32) :
    (covers f i → (placeField .lastWins f n w).getLsbD i = n.testBit (i + f.bitWidth - (f.msbIndex + 1))) ∧
    (¬ covers f i → (placeField .lastWins f n w).getLsbD i = w.getLsbD i) := by
  have hs := shifted_bit hf hn hi
  have hm := mask_bit hf hi
  constructor
  · intro hc
    rw [Bool.eq_iff_iff]
    simp only [placeField, BitVec.getLsbD_or, BitVec.getLsbD_and, BitVec.getLsbD_not, hi, decide_true, Bool.true_and, Bool.or_eq_true, Bool.and_eq_true, hs, Bool.not_eq_true']
    simp [hm.2 hc, hc]
  · intro hc
    rw [Bool.eq_iff_iff]
    have hm' : (shifted f (mask f.bitWidth)).getLsbD i = false := by
      rw [← Bool.not_eq_true, hm]; exact hc
    simp only [placeField, BitVec.getLsbD_or, BitVec.getLsbD_and, BitVec.getLsbD_not, hi, decide_true, Bool.true_and, Bool.or_eq_true, Bool.and_eq_true, hs, Bool.not_eq_true', hm']
    simp [hc]

/-- What ENCODE's loop builds under `or` (40_codec R105, R111). -/
theorem encodeFields_or (reg vs) (fs : List FieldSpec) (hw : ∀ f ∈ fs, f.wf = true) (hr : inRange vs fs) (w0 : Word) :
    ∃ w, encodeFields reg .or vs fs w0 = .ok w ∧ ∀ i, i < 32 → (w.getLsbD i = true ↔ w0.getLsbD i = true ∨
      ∃ f ∈ fs, ∃ v, encodes vs f v ∧ covers f i ∧ (num v).testBit (i + f.bitWidth - (f.msbIndex + 1)) = true) := by
  induction fs generalizing w0 with
  | nil => exact ⟨w0, rfl, by simp⟩
  | cons f fs ih =>
    have ihr := ih (fun g hg => hw g (.tail _ hg)) (fun g hg => hr g (.tail _ hg))
    have skip : (∀ v, ¬ encodes vs f v) → encodeFields reg .or vs (f :: fs) w0 = encodeFields reg .or vs fs w0 →
      ∃ w, encodeFields reg .or vs (f :: fs) w0 = .ok w ∧ ∀ i, i < 32 → (w.getLsbD i = true ↔ w0.getLsbD i = true ∨
      ∃ g ∈ f :: fs, ∃ v, encodes vs g v ∧ covers g i ∧ (num v).testBit (i + g.bitWidth - (g.msbIndex + 1)) = true) := by
      intro hno he
      obtain ⟨w, h1, h2⟩ := ihr w0
      refine ⟨w, he.trans h1, fun i hi => ?_⟩
      rw [h2 i hi]
      simp [hno]
    cases ha : f.access with
    | ro => exact skip (by simp [encodes, ha]) (by simp [encodeFields, ha])
    | rw =>
      cases hl : vs.lookup f.name with
      | none => exact skip (by simp [encodes, hl]) (by simp [encodeFields, ha, hl])
      | some v =>
        have hv := hr f (.head _) v ⟨ha, hl⟩
        obtain ⟨w, h1, h2⟩ := ihr (placeField .or f (num v) w0)
        refine ⟨w, ?_, fun i hi => ?_⟩
        · simp only [encodeFields, ha, hl]; rw [if_neg (by omega)]; exact h1
        · rw [h2 i hi]
          have hs := shifted_bit (hw f (.head _)) hv hi
          simp only [placeField, BitVec.getLsbD_or, Bool.or_eq_true, hs, List.mem_cons, exists_eq_or_imp]
          have : (∃ u, encodes vs f u ∧ covers f i ∧ (num u).testBit (i + f.bitWidth - (f.msbIndex + 1)) = true) ↔
            (covers f i ∧ (num v).testBit (i + f.bitWidth - (f.msbIndex + 1)) = true) := by
            simp [encodes, ha, hl]
          rw [this, or_assoc]

/-- What ENCODE's loop builds under `last_wins` (40_codec R105, R111). -/
theorem encodeFields_last (reg vs) (fs : List FieldSpec) (hw : ∀ f ∈ fs, f.wf = true) (hr : inRange vs fs) (w0 : Word) :
    ∃ w, encodeFields reg .lastWins vs fs w0 = .ok w ∧
      (∀ i before f after v, i < 32 → fs = before ++ f :: after → encodes vs f v → covers f i →
        (∀ g ∈ after, ∀ u, encodes vs g u → ¬ covers g i) →
        w.getLsbD i = (num v).testBit (i + f.bitWidth - (f.msbIndex + 1))) ∧
      (∀ i, i < 32 → (∀ f ∈ fs, ∀ v, encodes vs f v → ¬ covers f i) → w.getLsbD i = w0.getLsbD i) := by
  induction fs generalizing w0 with
  | nil => exact ⟨w0, rfl, by simp, by simp⟩
  | cons f fs ih =>
    have ihr := ih (fun g hg => hw g (.tail _ hg)) (fun g hg => hr g (.tail _ hg))
    have skip : (∀ v, ¬ encodes vs f v) → encodeFields reg .lastWins vs (f :: fs) w0 = encodeFields reg .lastWins vs fs w0 →
        ∃ w, encodeFields reg .lastWins vs (f :: fs) w0 = .ok w ∧
        (∀ i before g after v, i < 32 → f :: fs = before ++ g :: after → encodes vs g v → covers g i →
          (∀ g ∈ after, ∀ u, encodes vs g u → ¬ covers g i) →
          w.getLsbD i = (num v).testBit (i + g.bitWidth - (g.msbIndex + 1))) ∧
        (∀ i, i < 32 → (∀ g ∈ f :: fs, ∀ v, encodes vs g v → ¬ covers g i) → w.getLsbD i = w0.getLsbD i) := by
      intro hno he
      obtain ⟨w, h1, h2, h3⟩ := ihr w0
      refine ⟨w, he.trans h1, ?_, fun i hi h => h3 i hi fun g hg => h g (.tail _ hg)⟩
      intro i before g after v hi hsp hen hc hlast
      cases before with
      | nil => simp only [List.nil_append, List.cons.injEq] at hsp; obtain ⟨rfl, rfl⟩ := hsp; exact (hno v hen).elim
      | cons b bs => simp only [List.cons_append, List.cons.injEq] at hsp; exact h2 i bs g after v hi hsp.2 hen hc hlast
    cases ha : f.access with
    | ro => exact skip (by simp [encodes, ha]) (by simp [encodeFields, ha])
    | rw =>
      cases hl : vs.lookup f.name with
      | none => exact skip (by simp [encodes, hl]) (by simp [encodeFields, ha, hl])
      | some v =>
        have hv := hr f (.head _) v ⟨ha, hl⟩
        obtain ⟨w, h1, h2, h3⟩ := ihr (placeField .lastWins f (num v) w0)
        refine ⟨w, ?_, ?_, ?_⟩
        · simp only [encodeFields, ha, hl]; rw [if_neg (by omega)]; exact h1
        · intro i before g after u hi hsp hen hc hlast
          cases before with
          | nil =>
            simp only [List.nil_append, List.cons.injEq] at hsp; obtain ⟨rfl, rfl⟩ := hsp
            rw [h3 i hi hlast]
            have : u = v := by have := hen.2; rw [hl] at this; exact (Option.some.inj this).symm
            subst this
            exact (place_last_bit (hw _ (.head _)) hv w0 hi).1 hc
          | cons b bs => simp only [List.cons_append, List.cons.injEq] at hsp; exact h2 i bs g after u hi hsp.2 hen hc hlast
        · intro i hi h
          rw [h3 i hi fun g hg => h g (.tail _ hg)]
          exact (place_last_bit (hw _ (.head _)) hv w0 hi).2 (h f (.head _) v ⟨ha, hl⟩)

/-- ENCODE's loop fails only by the RangeError of a field of the list (40_codec R109). -/
theorem encodeFields_error {reg pol vs} : ∀ {fs : List FieldSpec} {w e}, encodeFields reg pol vs fs w = .error e →
   ∃ f ∈ fs, ∃ v, encodes vs f v ∧ 2 ^ f.bitWidth ≤ num v ∧ e = .range reg f.name (num v) f.bitWidth := by
  intro fs
  induction fs with
  | nil => intro w e h; cases h
  | cons f fs ih =>
    intro w e h
    have lift : (∃ g ∈ fs, ∃ v, encodes vs g v ∧ 2 ^ g.bitWidth ≤ num v ∧ e = .range reg g.name (num v) g.bitWidth) → ∃ g ∈ f :: fs, ∃ v, encodes vs g v ∧ 2 ^ g.bitWidth ≤ num v ∧ e = .range reg g.name (num v) g.bitWidth := by
      rintro ⟨g, hg, x⟩; exact ⟨g, .tail _ hg, x⟩
    simp only [encodeFields] at h
    cases ha : f.access with
    | ro => rw [ha] at h; exact lift (ih h)
    | rw =>
      rw [ha] at h
      cases hl : vs.lookup f.name with
      | none => rw [hl] at h; exact lift (ih h)
      | some v =>
        rw [hl] at h
        simp only [] at h
        split at h
        · rename_i hle
          cases h
          exact ⟨f, .head _, v, ⟨ha, hl⟩, hle, rfl⟩
        · exact lift (ih h)

/-- That error is no TransportError. -/
theorem range_not_transport {reg pol vs fs w e} (h : encodeFields reg pol vs fs w = .error e) : isTransportError e = false := by
  obtain ⟨_, _, _, _, _, rfl⟩ := encodeFields_error h; rfl

/-- The covered bits of a field list (40_codec R117). -/
theorem cover_bit {fs : List FieldSpec} (hw : ∀ f ∈ fs, f.wf = true) {i} (hi : i < 32) :
    (coverMask fs).getLsbD i = true ↔ ∃ f ∈ fs, covers f i := by
  induction fs with
  | nil => simp [coverMask]
  | cons f fs ih =>
    simp only [coverMask, BitVec.getLsbD_or, Bool.or_eq_true, mask_bit (hw f (.head _)) hi, ih fun g hg => hw g (.tail _ hg)]
    simp

/-- ENCODE's loop gives a word where every value fits (40_codec R109). -/
theorem encodeFields_of_inRange {register : Option Nat} {policy : Overlap} {vs : Values} {fs : List FieldSpec}
    (h : inRange vs fs) (w0 : Word) : ∃ w, encodeFields register policy vs fs w0 = .ok w := by
  cases hq : encodeFields register policy vs fs w0 with
  | ok w => exact ⟨w, rfl⟩
  | error e =>
    obtain ⟨f, hf, v, hv, hle, -⟩ := encodeFields_error hq
    exact absurd (h f hf v hv) (by omega)

/-- The word does not depend on what a RangeError would record. -/
theorem encodeFields_register {register register' : Option Nat} {policy : Overlap} {vs : Values}
    {fs : List FieldSpec} {w0 w : Word} (h : encodeFields register policy vs fs w0 = .ok w) :
    encodeFields register' policy vs fs w0 = .ok w := by
  induction fs generalizing w0 with
  | nil => exact h
  | cons f fs ih =>
    simp only [encodeFields] at h ⊢
    split at h
    · exact ih h
    · split at h
      · exact ih h
      · split at h
        · cases h
        · rename_i hn
          simpa only [hn, if_false] using ih h

/-- With every key declared the set `U` of 41_register R134 is empty. -/
theorem unknownKeys_eq_nil {fs : List FieldSpec} {vs : Values} (h : ∀ k ∈ keys vs, k ∈ fieldNames fs) :
    unknownKeys fs vs = [] := by
  simpa [unknownKeys] using h

/-- With no key read-only the set `A` of 41_register R134 is empty. -/
theorem readOnlyKeys_eq_nil {fs : List FieldSpec} {vs : Values}
    (h : ∀ f ∈ fs, f.access = .ro → f.name ∉ keys vs) : readOnlyKeys fs vs = [] := by
  simpa [readOnlyKeys, fieldNames] using h

end Sys2Proof.Machine
end

