-- ==== Sys2Proof/Laws/Exchange.lean ====
section
/-! SUPPORT. What one exchange and the engine's two sequences can do, said once (43_transaction R160 to R168). -/

namespace Sys2Proof.Machine

open Sys2Proof

/-! ### What traffic leaves alone -/

/-- The state a sequence ends in, however it ends. -/
def runState {α : Type} : Run α → State
  | .done _ s => s
  | .raised _ s => s
  | .stuck s => s

/-- From `s` to `t` only the engine's own fields changed, and at most `n` legal frames went out. -/
structure Traffic (n : Nat) (s t : State) : Prop where
  config : t.config = s.config
  cache : t.cache = s.cache
  status : t.status = s.status
  statusRaw : t.statusRaw = s.statusRaw
  closed : t.closed = s.closed
  transportHeld : t.transportHeld = s.transportHeld
  results : t.results = s.results
  pending : t.pending = s.pending
  log : ∃ added, t.xlog = s.xlog ++ added ∧ added.length ≤ n ∧
    (∀ e ∈ added, ∃ tx o, e = LogEntry.exchange tx o ∧ legalRequest tx)
  quiet : t.xlog = s.xlog → t.txBuf = s.txBuf ∧ t.rxBuf = s.rxBuf ∧ t.environment = s.environment ∧
    t.remotePipeline = s.remotePipeline ∧ t.drawn = s.drawn

/-- A change of phase is traffic without a frame. -/
theorem Traffic.setPhase (s : State) (p : Phase) : Traffic 0 s (s.setPhase p) :=
  ⟨rfl, rfl, rfl, rfl, rfl, rfl, rfl, rfl, ⟨[], by simp⟩, fun _ => ⟨rfl, rfl, rfl, rfl, rfl⟩⟩

/-- No change is traffic without a frame. -/
theorem Traffic.refl (s : State) : Traffic 0 s s :=
  ⟨rfl, rfl, rfl, rfl, rfl, rfl, rfl, rfl, ⟨[], by simp⟩, fun _ => ⟨rfl, rfl, rfl, rfl, rfl⟩⟩

/-- Traffic after traffic. -/
theorem Traffic.trans {n m : Nat} {s t u : State} (h : Traffic n s t) (k : Traffic m t u) : Traffic (n + m) s u := by
  obtain ⟨a, ha, hn, hl⟩ := h.log
  obtain ⟨b, hb, hm, hk⟩ := k.log
  refine ⟨k.config.trans h.config, k.cache.trans h.cache, k.status.trans h.status, k.statusRaw.trans h.statusRaw,
    k.closed.trans h.closed, k.transportHeld.trans h.transportHeld, k.results.trans h.results, k.pending.trans h.pending,
    ⟨a ++ b, by rw [hb, ha, List.append_assoc], by simp; omega, ?_⟩, ?_⟩
  · intro e he
    rcases List.mem_append.1 he with he | he
    · exact hl e he
    · exact hk e he
  · intro he
    rw [hb, ha, List.append_assoc] at he
    have hnil : a ++ b = [] := by simpa using he
    obtain ⟨rfl, rfl⟩ := List.append_eq_nil_iff.1 hnil
    obtain ⟨h1, h2, h3, h4, h5⟩ := h.quiet (by simpa using ha)
    obtain ⟨k1, k2, k3, k4, k5⟩ := k.quiet (by simpa using hb)
    exact ⟨k1.trans h1, k2.trans h2, k3.trans h3, k4.trans h4, k5.trans h5⟩

/-- Where the traffic holds no exchange, the engine's own fields are as they were (43_transaction R160). -/
theorem Traffic.quiet_of_no_exchange {n : Nat} {s t : State} (h : Traffic n s t) :
    ∃ added, t.xlog = s.xlog ++ added ∧ (exchangeCount added = 0 →
      t.txBuf = s.txBuf ∧ t.rxBuf = s.rxBuf ∧ t.environment = s.environment ∧
        t.remotePipeline = s.remotePipeline ∧ t.drawn = s.drawn) := by
  obtain ⟨added, ha, -, hl⟩ := h.log
  refine ⟨added, ha, fun h0 => h.quiet ?_⟩
  cases added with
  | nil => simpa using ha
  | cons e l =>
    obtain ⟨tx, o, rfl, -⟩ := hl e (.head _)
    simp [exchangeCount] at h0

/-- A bound on the frames may be raised. -/
theorem Traffic.mono {n m : Nat} {s t : State} (h : Traffic n s t) (hnm : n ≤ m) : Traffic m s t := by
  obtain ⟨a, ha, hn, hl⟩ := h.log
  exact { h with log := ⟨a, ha, hn.trans hnm, hl⟩ }

/-- An exchange is traffic of one frame. -/
theorem Traffic.exchange (tx : Frame) (s : State) (h : legalRequest tx) : Traffic 1 s (exchange tx s).2 := by
  refine ⟨rfl, rfl, rfl, rfl, rfl, rfl, rfl, rfl, ⟨[.exchange tx (answer tx s).1], rfl, by simp, ?_⟩, ?_⟩
  · simp only [List.mem_singleton, forall_eq]; exact ⟨_, _, rfl, h⟩
  · intro he; simp [Machine.exchange] at he

/-! ### The engine's runs -/

/-- The block is stuck in an exchange that never returned. -/
def Sticks (s : State) : Prop := s.phase ≠ .idle ∧ ∃ tx, s.xlog.getLast? = some (.exchange tx .noReturn)

/-- Everything at most `n` exchanges one after another can do, their failures raised. -/
def ExchangeRun {α : Type} (n : Nat) (s : State) : Run α → Prop
  | .done _ t => Traffic n s t
  | .raised e t => Traffic n s t ∧ isTransportError e = true
  | .stuck t => Traffic n s t ∧ Sticks t

/-- From `s` to `t` no block state is written but `Phase`: the buffers are as they were (60_exceptions R207). -/
structure Aborted (n : Nat) (s t : State) : Prop extends Traffic n s t where
  txBuf : t.txBuf = s.txBuf
  rxBuf : t.rxBuf = s.rxBuf

/-- Everything a sequence of at most `n` exchanges can do; where it raises, it raises precisely. -/
def EngineRun {α : Type} (n : Nat) (s : State) : Run α → Prop
  | .done _ t => Traffic n s t
  | .raised e t => Aborted n s t ∧ isTransportError e = true
  | .stuck t => Traffic n s t ∧ Sticks t

/-- What exchanges did, with the buffers as they were. -/
theorem Traffic.aborted {n : Nat} {s t : State} (h : Traffic n s t) : Aborted n s (t.restoreBuffers s) :=
  { config := h.config, cache := h.cache, status := h.status, statusRaw := h.statusRaw, closed := h.closed,
    transportHeld := h.transportHeld, results := h.results, pending := h.pending, log := h.log,
    quiet := fun he => ⟨rfl, rfl, (h.quiet he).2.2⟩, txBuf := rfl, rxBuf := rfl }

/-- Exchanges under `precisely` make a sequence of the engine. -/
theorem engine_precisely {α : Type} {n : Nat} {s : State} {r : Run α} (h : ExchangeRun n s r) :
    EngineRun n s (precisely s r) := by
  cases r with
  | done a t => exact h
  | raised e t => exact ⟨h.1.aborted, h.2⟩
  | stuck t => exact h

/-- The flush frame is legal (30_encoding R84). -/
theorem legal_zero : legalRequest .zero := .inl ⟨0, rfl⟩

/-- A read request is legal. -/
theorem legal_read (a : Addr) : legalRequest (readFrame a) := .inl ⟨a, rfl⟩

/-- A write request is legal. -/
theorem legal_write (a : Addr) (d : DataBytes) : legalRequest (writeFrame a d) := .inr ⟨a, d, rfl⟩

/-- One exchange, with its failure raised. -/
theorem exchange_run (op : Op) (k : Nat) (tx : Frame) (s : State) (h : legalRequest tx) (hp : s.phase ≠ .idle) :
    ExchangeRun 1 s (exchangeOrRaise op k tx s) := by
  have ht := Traffic.exchange tx s h
  have hx : (exchange tx s).2.xlog = s.xlog ++ [.exchange tx (exchange tx s).1] := rfl
  have hph : (exchange tx s).2.phase = s.phase := rfl
  unfold exchangeOrRaise
  cases he : exchange tx s with
  | mk o t =>
    rw [he] at ht hx hph
    cases o with
    | response rx => exact ht
    | transportError => exact ⟨ht, rfl⟩
    | noReturn => exact ⟨ht, by rw [Sticks]; exact ⟨hph ▸ hp, tx, by rw [hx]; simp⟩⟩

/-- One sequence after another. -/
theorem exchanges_andThen {α β : Type} {n m : Nat} {s : State} {r : Run α} {k : α → State → Run β}
    (h : ExchangeRun n s r) (hk : ∀ a t, ExchangeRun m t (k a t)) : ExchangeRun (n + m) s (andThen r k) := by
  cases r with
  | done a t =>
    have := hk a t
    simp only [andThen]
    cases hr : k a t with
    | done b u => rw [hr] at this; exact Traffic.trans h this
    | raised e u => rw [hr] at this; exact ⟨Traffic.trans h this.1, this.2⟩
    | stuck u => rw [hr] at this; exact ⟨Traffic.trans h this.1, this.2⟩
  | raised e t => exact ⟨h.1.mono (by omega), h.2⟩
  | stuck t => exact ⟨h.1.mono (by omega), h.2⟩

/-- A sequence under a phase it sets first. -/
theorem exchanges_setPhase {α : Type} {n : Nat} {s : State} {p : Phase} {r : Run α} (h : ExchangeRun n (s.setPhase p) r) : ExchangeRun n s r := by
  have hp := Traffic.setPhase s p
  cases r with
  | done b u => have := Traffic.trans hp h; rw [Nat.zero_add] at this; exact this
  | raised e u => exact ⟨by have := Traffic.trans hp h.1; simpa using this, h.2⟩
  | stuck u => exact ⟨by have := Traffic.trans hp h.1; simpa using this, h.2⟩

/-- `ReadSeq` performs at most two exchanges (43_transaction R161, R168). -/
theorem engine_readSeq (op : Op) (a : Addr) (s : State) : EngineRun 2 s (readSeq op a s) := by
  apply engine_precisely
  apply exchanges_setPhase (p := .rdEx1 a)
  refine exchanges_andThen (n := 1) (m := 1) (exchange_run op 1 _ _ (legal_read a) (by simp)) fun _ t => ?_
  apply exchanges_setPhase (p := .rdEx2 a)
  exact exchanges_andThen (n := 1) (m := 0) (exchange_run op 2 _ _ legal_zero (by simp)) fun rx u => Traffic.setPhase u .idle

/-- `WriteSeq` performs at most one exchange (43_transaction R164). -/
theorem engine_writeSeq (op : Op) (a : Addr) (d : DataBytes) (s : State) : EngineRun 1 s (writeSeq op a d s) := by
  apply engine_precisely
  apply exchanges_setPhase (p := .wrEx a)
  exact exchanges_andThen (n := 1) (m := 0) (exchange_run op 1 _ _ (legal_write a d) (by simp)) fun rx u => Traffic.setPhase u .idle

/-! ### With settled answers -/

/-- One exchange whose outcome is settled: what it gives, and the state it leaves (43_transaction R160). -/
theorem exchangeOrRaise_settled (op : Op) (k : Nat) (tx : Frame) {s : State} {o : ExchangeOutcome}
    {rest : List ExchangeOutcome} (he : s.environment = .draws (o :: rest)) :
    exchangeOrRaise op k tx s =
      let t : State :=
        { s with
          txBuf := tx, rxBuf := rxAfter o s.rxBuf, xlog := s.xlog ++ [.exchange tx o], environment := .draws rest
          remotePipeline := pipelineAfter tx o s.remotePipeline, drawn := s.drawn + 1 }
      match o with
      | .response rx => .done rx t
      | .transportError => .raised (.transport op k tx) t
      | .noReturn => .stuck t := by
  cases o <;> simp [exchangeOrRaise, exchange, answer, he]

/-- `ReadSeq` when both exchanges answer (43_transaction R161 to R163). -/
theorem readSeq_answers (op a s r0 r1 rest) (he : s.environment = .draws (.response r0 :: .response r1 :: rest)) :
   readSeq op a s = .done (r1.b0, r1.data) { s with phase := .idle, txBuf := .zero, rxBuf := r1, xlog := s.xlog ++ [.exchange (readFrame a) (.response r0), .exchange .zero (.response r1)], environment := .draws rest, remotePipeline := some .zero, drawn := s.drawn + 2 } := by
  simp [readSeq, precisely, exchangeOrRaise, exchange, answer, State.setPhase, he, Machine.andThen, rxAfter, pipelineAfter]

/-- `WriteSeq` when its exchange answers (43_transaction R164, R165). -/
theorem writeSeq_answers (op a d s rx rest) (he : s.environment = .draws (.response rx :: rest)) :
   writeSeq op a d s = .done rx { s with phase := .idle, txBuf := writeFrame a d, rxBuf := rx, xlog := s.xlog ++ [.exchange (writeFrame a d) (.response rx)], environment := .draws rest, remotePipeline := some (writeFrame a d), drawn := s.drawn + 1 } := by
  simp [writeSeq, precisely, exchangeOrRaise, exchange, answer, State.setPhase, he, Machine.andThen, rxAfter, pipelineAfter]

/-- `ReadSeq` when exchange #1 fails: no block state but `Phase` is written (43_transaction R168, 60_exceptions
R207). -/
theorem readSeq_first_fails (op a s rest) (he : s.environment = .draws (.transportError :: rest)) :
    readSeq op a s = .raised (.transport op 1 (readFrame a))
      { s with
        phase := .rdEx1 a, xlog := s.xlog ++ [.exchange (readFrame a) .transportError], environment := .draws rest
        drawn := s.drawn + 1 } := by
  simp [readSeq, precisely, State.restoreBuffers, exchangeOrRaise, exchange, answer, State.setPhase, he,
    Machine.andThen, pipelineAfter]

/-- `ReadSeq` when exchange #2 fails: the remote chip has the address (70_reset R241). -/
theorem readSeq_second_fails (op a s r0 rest)
    (he : s.environment = .draws (.response r0 :: .transportError :: rest)) :
    readSeq op a s = .raised (.transport op 2 .zero)
      { s with
        phase := .rdEx2 a
        xlog := s.xlog ++ [.exchange (readFrame a) (.response r0), .exchange .zero .transportError]
        environment := .draws rest, remotePipeline := some (readFrame a), drawn := s.drawn + 2 } := by
  simp [readSeq, precisely, State.restoreBuffers, exchangeOrRaise, exchange, answer, State.setPhase, he,
    Machine.andThen, pipelineAfter]

/-- `WriteSeq` when its exchange fails (43_transaction R166, 60_exceptions R207). -/
theorem writeSeq_fails (op a d s rest) (he : s.environment = .draws (.transportError :: rest)) :
    writeSeq op a d s = .raised (.transport op 1 (writeFrame a d))
      { s with
        phase := .wrEx a, xlog := s.xlog ++ [.exchange (writeFrame a d) .transportError], environment := .draws rest
        drawn := s.drawn + 1 } := by
  simp [writeSeq, precisely, State.restoreBuffers, exchangeOrRaise, exchange, answer, State.setPhase, he,
    Machine.andThen, pipelineAfter]

end Sys2Proof.Machine
end

