-- ==== Sys2Proof/Laws/Exec.lean ====
section
/-! SUPPORT. How an instruction can end, said once for every instruction; and what READ_ALL's chain of reads does. -/

namespace Sys2Proof.Machine

open Sys2Proof

/-! ### Instructions with at most one register -/

/-- What an instruction writes once its exchanges are over. -/
def Commits (i : Instr) (s u c : State) : Prop :=
  match i with
  | .regRead reg => ∃ r st d, resolve s.config.table reg = some r ∧ c = commitRead r st d u
  | .regWrite _ _ => ∃ rx, c = overlayWrite rx u
  | _ => c = u

/-- The four ways an instruction ends. -/
inductive Ends (i : Instr) (s : State) : State → Prop
  | untouched (r : Result) (h : ∀ e, r = .err e → isTransportError e = false) : Ends i s (answered s r)
  | committed (ho : s.closed = false) (p : Payload) (u c : State) (h : Traffic (exchangeBudget s (opOf i)) s u) (hc : Commits i s u c) (hp : opOf i = .regRead ∨ opOf i = .regWrite → p = .none) : Ends i s (giveOk p c)
  | failed (ho : s.closed = false) (e : Error) (u : State) (h : Aborted (exchangeBudget s (opOf i)) s u) (he : isTransportError e = true) : Ends i s (takeError e u)
  | stuck (ho : s.closed = false) (u : State) (h : Traffic (exchangeBudget s (opOf i)) s u) (hs : Sticks u) : Ends i s u

/-- The end of a command on a closed block. -/
theorem ends_closed (i : Instr) (s : State) (op : Op) : Ends i s (finish (.raised (.closed op) s)) :=
  .untouched (.err (.closed op)) (by rintro e h; cases h; rfl)

/-- The end of a command whose sequence is the engine's. -/
theorem ends_engine {α : Type} (i : Instr) (s : State) {r : Run α} {k : α → State → Run Payload} (ho : s.closed = false) (h : EngineRun (exchangeBudget s (opOf i)) s r)
    (hk : ∀ a u, ∃ p c, k a u = .done p c ∧ Commits i s u c ∧ (opOf i = .regRead ∨ opOf i = .regWrite → p = .none)) : Ends i s (finish (andThen r k)) := by
  cases r with
  | done a u => obtain ⟨p, c, hp, hc, hn⟩ := hk a u; simp only [andThen, hp]; exact .committed ho p u c h hc hn
  | raised e u => exact .failed ho e u h.1 h.2
  | stuck u => exact .stuck ho u h.1 h.2

/-- The end of a command that checks `Closed` first. -/
theorem ends_whileOpen (i : Instr) (s : State) (op : Op) (k : Run Payload) (h : s.closed = false → Ends i s (finish k)) :
    Ends i s (finish (whileOpen op s k)) := by
  unfold whileOpen
  cases hc : s.closed
  · simpa using h hc
  · simpa using ends_closed i s op

/-- The end of a command that resolves a register. -/
theorem ends_withRegister (i : Instr) (s : State) (reg : RegRef) (k : Nat → Run Payload)
    (h : ∀ r, resolve s.config.table reg = some r → Ends i s (finish (k r))) :
    Ends i s (finish (withRegister reg s k)) := by
  unfold withRegister
  cases hr : resolve s.config.table reg with
  | none => exact .untouched (.err (.notFoundRegister reg)) (by rintro e h; cases h; rfl)
  | some r => exact h r hr

/-- A value without an exchange. -/
theorem ends_ok (i : Instr) (s : State) (p : Payload) : Ends i s (finish (.done p s)) :=
  .untouched (.ok p) (by rintro e h; cases h)

/-- An error without an exchange. -/
theorem ends_err (i : Instr) (s : State) (e : Error) (h : isTransportError e = false) : Ends i s (finish (.raised e s)) :=
  .untouched (.err e) (by rintro e h; cases h; assumption)

/-- Every instruction but READ_ALL, CLOSE and RESPONSE. -/
theorem exec_ends (i : Instr) (s : State) (h1 : opOf i ≠ .readAll) (h2 : opOf i ≠ .close) (h3 : opOf i ≠ .response) :
    ∃ t, exec i s = .next t ∧ Ends i s t := by
  cases i with
  | decode w fs => exact ⟨_, rfl, ends_ok _ s _⟩
  | encode vs fs =>
    refine ⟨_, rfl, ?_⟩
    unfold encodeRun
    split
    · exact ends_ok _ s _
    · rename_i e he; exact ends_err _ s e (range_not_transport he)
  | readRegister a =>
    exact ⟨_, rfl, ends_whileOpen _ _ _ _ fun ho => ends_engine _ _ ho (engine_readSeq _ a s) fun x u => ⟨_, _, rfl, rfl, by simp [opOf]⟩⟩
  | writeRegister a d =>
    exact ⟨_, rfl, ends_whileOpen _ _ _ _ fun ho => ends_engine _ _ ho (engine_writeSeq _ a d s) fun x u => ⟨_, _, rfl, rfl, by simp [opOf]⟩⟩
  | regRead reg =>
    exact ⟨_, rfl, ends_whileOpen _ _ _ _ fun ho => ends_withRegister _ _ _ _ fun r hr =>
      ends_engine _ _ ho (engine_readSeq _ _ s) fun x u => ⟨_, _, rfl, ⟨r, x.1, x.2, hr, rfl⟩, fun _ => rfl⟩⟩
  | regWrite reg vs =>
    refine ⟨_, rfl, ends_whileOpen _ _ _ _ fun ho => ends_withRegister _ _ _ _ fun r hr => ?_⟩
    split
    · exact ends_err _ s _ rfl
    · split
      · exact ends_err _ s _ rfl
      · unfold mergedWrite
        split
        · rename_i e he; exact ends_err _ s e (range_not_transport he)
        · exact ends_engine _ _ ho (engine_writeSeq _ _ _ s) fun x u => ⟨_, _, rfl, ⟨x, rfl⟩, fun _ => rfl⟩
  | regGet reg n =>
    refine ⟨_, rfl, ends_whileOpen _ _ _ _ fun _ => ends_withRegister _ _ _ _ fun r hr => ?_⟩
    split
    · exact ends_err _ s _ rfl
    · unfold cachedValue
      split
      · exact ends_err _ s _ rfl
      · split
        · exact ends_err _ s _ rfl
        · exact ends_ok _ s _
  | statusUpdate b => exact ⟨_, rfl, ends_ok _ s _⟩
  | readAll => exact (h1 rfl).elim
  | getStatus => exact ⟨_, rfl, ends_whileOpen _ _ _ _ fun _ => ends_ok _ s _⟩
  | lookup n => exact ⟨_, rfl, ends_whileOpen _ _ _ _ fun _ => ends_withRegister _ _ _ _ fun r hr => ends_ok _ s _⟩
  | close => exact (h2 rfl).elim
  | readReq a =>
    exact ⟨_, rfl, ends_whileOpen _ _ _ _ fun ho => ends_engine _ _ ho (engine_precisely (exchanges_setPhase (p := .rdEx1 a) (exchange_run _ _ _ _ (legal_read a) (by simp)))) fun x u => ⟨_, _, rfl, rfl, by simp [opOf]⟩⟩
  | writeReq a d =>
    exact ⟨_, rfl, ends_whileOpen _ _ _ _ fun ho => ends_engine _ _ ho (engine_precisely (exchanges_setPhase (p := .wrEx a) (exchange_run _ _ _ _ (legal_write a _) (by simp)))) fun x u => ⟨_, _, rfl, rfl, by simp [opOf]⟩⟩
  | response st d => exact (h3 rfl).elim

/-- CLOSE (44_register_map R186, R188). -/
theorem exec_close (s : State) : exec .close s = .next (if s.closed then answered s (.err (.closed .close)) else giveOk .none s.release) := by
  simp only [exec, execClose, whileOpen]; cases s.closed <;> rfl

/-! ### READ_ALL -/

/-- `k` register reads one after another, each committed. -/
inductive ReadChain : Nat → State → State → Prop
  | nil (s : State) : ReadChain 0 s s
  | cons {k : Nat} {s u t : State} (r : Nat) (st : Byte) (d : DataBytes) (hr : r < s.config.table.length) (h : Traffic 2 s u) (c : ReadChain k (commitRead r st d u) t) :
      ReadChain (k + 1) s t

/-- Everything a chain of `n` reads can do. -/
def ChainRun (n : Nat) (s : State) : Run Payload → Prop
  | .done p t => p = .none ∧ ReadChain n s t
  | .raised e t => ∃ k u, k < n ∧ ReadChain k s u ∧ Aborted 2 u t ∧ isTransportError e = true
  | .stuck t => ∃ k u, k < n ∧ ReadChain k s u ∧ Traffic 2 u t ∧ Sticks t

/-- A list of register reads is a chain (44_register_map R182, R184). -/
theorem chain_readEach : ∀ (rs : List Nat) (s : State), s.closed = false → (∀ r ∈ rs, r < s.config.table.length) →
    ChainRun rs.length s (readEach rs s) := by
  intro rs
  induction rs with
  | nil => intro s _ _; exact ⟨rfl, .nil s⟩
  | cons r rs ih =>
    intro s hc hr
    have hrl := hr r (.head _)
    have he : regReadRun (.index r) s = andThen (readSeq .regRead (registerAddr s r) s) fun x s1 => .done .none (commitRead r x.1 x.2 s1) := by
      simp [regReadRun, whileOpen, hc, withRegister, resolve, hrl]
    have hs := engine_readSeq .regRead (registerAddr s r) s
    simp only [readEach, he]
    cases hq : readSeq .regRead (registerAddr s r) s with
    | done x u =>
      rw [hq] at hs
      simp only [andThen]
      have hi := ih (commitRead r x.1 x.2 u) (by simpa [commitRead, hc] using hs.closed.trans hc) (by
        intro r' hr'; have := hr r' (.tail _ hr'); simpa [commitRead, hs.config] using this)
      cases hh : readEach rs (commitRead r x.1 x.2 u) with
      | done p t => rw [hh] at hi; exact ⟨hi.1, .cons r _ _ hrl hs hi.2⟩
      | raised e t =>
        rw [hh] at hi; obtain ⟨k, v, hk, hv, h⟩ := hi
        exact ⟨k + 1, v, by simp; omega, .cons r _ _ hrl hs hv, h⟩
      | stuck t =>
        rw [hh] at hi; obtain ⟨k, v, hk, hv, h⟩ := hi
        exact ⟨k + 1, v, by simp; omega, .cons r _ _ hrl hs hv, h⟩
    | raised e u => rw [hq] at hs; exact ⟨0, s, by simp, .nil s, hs.1, hs.2⟩
    | stuck u => rw [hq] at hs; exact ⟨0, s, by simp, .nil s, hs.1, hs.2⟩

/-- READ_ALL (44_register_map R182). -/
theorem exec_readAll (s : State) : exec .readAll s = .next (if s.closed then answered s (.err (.closed .readAll)) else
   finish (readEach (List.range s.config.table.length) s)) := by
  simp only [exec, execReadAll, readAllRun, whileOpen]; cases s.closed <;> rfl

/-- READ_ALL is a chain over the whole table. -/
theorem readAll_chain (s : State) (hc : s.closed = false) : ChainRun s.config.table.length s (readEach (List.range s.config.table.length) s) := by
  simpa using chain_readEach (List.range s.config.table.length) s hc (by simp)

/-- What a chain of reads leaves alone. -/
structure Chained (n : Nat) (s t : State) : Prop where
  config : t.config = s.config
  closed : t.closed = s.closed
  transportHeld : t.transportHeld = s.transportHeld
  results : t.results = s.results
  pending : t.pending = s.pending
  log : ∃ added, t.xlog = s.xlog ++ added ∧ added.length ≤ n ∧
    (∀ e ∈ added, ∃ tx o, e = LogEntry.exchange tx o ∧ legalRequest tx)
  quiet : t.xlog = s.xlog → t.txBuf = s.txBuf ∧ t.rxBuf = s.rxBuf ∧ t.environment = s.environment ∧
    t.remotePipeline = s.remotePipeline ∧ t.drawn = s.drawn

/-- Traffic leaves all of it alone. -/
theorem Traffic.chained {n s t} (h : Traffic n s t) : Chained n s t :=
  ⟨h.config, h.closed, h.transportHeld, h.results, h.pending, h.log, h.quiet⟩

/-- A chain after a chain. -/
theorem Chained.trans {n m : Nat} {s t u : State} (h : Chained n s t) (k : Chained m t u) : Chained (n + m) s u := by
  obtain ⟨a, ha, hn, hl⟩ := h.log
  obtain ⟨b, hb, hm, hk⟩ := k.log
  refine ⟨k.config.trans h.config,
    k.closed.trans h.closed, k.transportHeld.trans h.transportHeld, k.results.trans h.results, k.pending.trans h.pending,
    ⟨a ++ b, by rw [hb, ha, List.append_assoc], by simp; omega, ?_⟩, ?_⟩
  · intro e he
    rcases List.mem_append.1 he with he | he
    · exact hl e he
    · exact hk e he
  · intro he
    rw [hb, ha, List.append_assoc] at he
    have hnil : a ++ b = [] := by simpa using he
    obtain ⟨rfl, rfl⟩ := List.append_eq_nil_iff.1 hnil
    obtain ⟨h1, h2, h3, h4, h5⟩ := h.quiet (by simpa using ha)
    obtain ⟨k1, k2, k3, k4, k5⟩ := k.quiet (by simpa using hb)
    exact ⟨k1.trans h1, k2.trans h2, k3.trans h3, k4.trans h4, k5.trans h5⟩

/-- The commit of a read (41_register R130). -/
theorem Chained.commit (r st d u) : Chained 0 u (commitRead r st d u) :=
  ⟨rfl, rfl, rfl, rfl, rfl, ⟨[], by simp [commitRead]⟩, fun _ => ⟨rfl, rfl, rfl, rfl, rfl⟩⟩

/-- A chain of `k` reads performs at most `2 * k` exchanges. -/
theorem ReadChain.chained {k s t} (h : ReadChain k s t) : Chained (2 * k) s t := by
  induction h with
  | nil s => exact ⟨rfl, rfl, rfl, rfl, rfl, ⟨[], by simp⟩, fun _ => ⟨rfl, rfl, rfl, rfl, rfl⟩⟩
  | cons r st d hr h c ih =>
    have := (h.chained.trans (Chained.commit r st d _)).trans ih
    rename_i k' _ _ _
    have e : 2 + 0 + 2 * k' = 2 * (k' + 1) := by ring
    exact e ▸ this

/-! ### Every instruction -/

/-- Traffic and then what the instruction writes. -/
theorem Traffic.of_commit {i s u c} {n} (h : Traffic n s u) (hc : Commits i s u c) : Chained n s c := by
  unfold Commits at hc
  split at hc
  · obtain ⟨r, st, d, hr, rfl⟩ := hc; exact h.chained.trans (Chained.commit r st d u)
  · obtain ⟨rx, rfl⟩ := hc
    have hc := h.chained
    unfold overlayWrite
    split
    · exact ⟨hc.config, hc.closed, hc.transportHeld, hc.results, hc.pending, hc.log, hc.quiet⟩
    · exact hc
  · subst hc; exact h.chained

/-- Every instruction but CLOSE and RESPONSE. -/
theorem exec_general (i : Instr) (s : State) (h2 : opOf i ≠ .close) (h3 : opOf i ≠ .response) :
    ∃ t, exec i s = .next t ∧
     ((∃ r, (∀ e, r = .err e → isTransportError e = false) ∧ t = answered s r) ∨
      (s.closed = false ∧ ∃ n p c, n ≤ exchangeBudget s (opOf i) ∧ Chained n s c ∧ t = giveOk p c) ∨
      (s.closed = false ∧ ∃ n e u, n ≤ exchangeBudget s (opOf i) ∧ Chained n s u ∧ isTransportError e = true ∧ t = takeError e u) ∨
      (s.closed = false ∧ ∃ n u, n ≤ exchangeBudget s (opOf i) ∧ Chained n s u ∧ Sticks u ∧ t = u)) := by
  by_cases h1 : opOf i = .readAll
  · have hi : i = .readAll := by cases i <;> simp_all [opOf]
    subst hi
    refine ⟨_, exec_readAll s, ?_⟩
    cases hc : s.closed
    · simp only [Bool.false_eq_true, if_false]
      have h := readAll_chain s hc
      cases hr : readEach (List.range s.config.table.length) s with
      | done p t => rw [hr] at h; exact .inr (.inl ⟨trivial, _, _, _, le_refl _, h.2.chained, rfl⟩)
      | raised e t =>
        rw [hr] at h; obtain ⟨k, u, hk, hu, ht, he⟩ := h
        exact .inr (.inr (.inl ⟨trivial, 2 * k + 2, e, t, by simp [exchangeBudget, opOf]; omega, hu.chained.trans ht.chained, he, rfl⟩))
      | stuck t =>
        rw [hr] at h; obtain ⟨k, u, hk, hu, ht, hs⟩ := h
        exact .inr (.inr (.inr ⟨trivial, 2 * k + 2, t, by simp [exchangeBudget, opOf]; omega, hu.chained.trans ht.chained, hs, rfl⟩))
    · exact .inl ⟨.err (.closed .readAll), by rintro e h; cases h; rfl, by simp⟩
  · obtain ⟨t, ht, he⟩ := exec_ends i s h1 h2 h3
    refine ⟨t, ht, ?_⟩
    cases he with
    | untouched r h => exact .inl ⟨r, h, rfl⟩
    | committed ho p u c h hc hp => exact .inr (.inl ⟨ho, _, p, c, le_refl _, h.of_commit hc, rfl⟩)
    | failed ho e u h he => exact .inr (.inr (.inl ⟨ho, _, e, u, le_refl _, h.chained, he, rfl⟩))
    | stuck ho u h hs => exact .inr (.inr (.inr ⟨ho, _, _, le_refl _, h.chained, hs, rfl⟩))

/-- What `fetch` takes is the decoded head of the queue (20_memory R62). -/
theorem fetch_takes {s i s'} (hf : fetch s = .takes i s') : ∃ r rest, s.phase = .idle ∧ s.pending = r :: rest ∧ decode r = .ok i ∧ s' = { s with pending := rest } := by
      unfold fetch at hf
      cases hp : s.phase <;> rw [hp] at hf <;> simp only [] at hf <;> try cases hf
      cases hq : s.pending with
      | nil => rw [hq] at hf; cases hf
      | cons r rest =>
        rw [hq] at hf; simp only [] at hf
        cases hd : decode r with
        | error => rw [hd] at hf; cases hf
        | ok j => rw [hd] at hf; cases hf; exact ⟨r, rest, rfl, rfl, hd, rfl⟩

/-! ### READ_ALL with settled answers -/

/-- The reads of registers `k`, `k+1`, ... with the responses `ps` are done. -/
structure ReadsDone (k : Nat) (ps : List (Frame × Frame)) (os : List ExchangeOutcome) (s t : State) : Prop where
  config : t.config = s.config
  closed : t.closed = s.closed
  pending : t.pending = s.pending
  results : t.results = s.results
  log : t.xlog = s.xlog ++ readEntries s k ps
  environment : t.environment = .draws os
  cacheLength : t.cache.length = s.cache.length
  cacheIn : ∀ r p, ps[r]? = some p → t.cache[k + r]? = some (some (decodeFields (fromBytes p.2.data) (registerFields s (k + r))))
  cacheOut : ∀ r, (r < k ∨ k + ps.length ≤ r) → t.cache[r]? = s.cache[r]?
  statusLast : match ps.getLast? with
        | none => t.status = s.status ∧ t.statusRaw = s.statusRaw
        | some p => t.statusRaw = some p.2.b0 ∧ t.status = some (statusFlags s.config.statusLayout p.2.b0)
  buffersLast : match ps.getLast? with
        | none => t.txBuf = s.txBuf ∧ t.rxBuf = s.rxBuf
        | some p => t.txBuf = .zero ∧ t.rxBuf = p.2

/-- REG_READ by index on an open block. -/
theorem regReadRun_index {s : State} {r : Nat} (hc : s.closed = false) (hr : r < s.config.table.length) :
    regReadRun (.index r) s = andThen (readSeq .regRead (registerAddr s r) s) fun x s1 => .done .none (commitRead r x.1 x.2 s1) := by
  simp [regReadRun, whileOpen, hc, withRegister, resolve, hr]

/-- The log entries of a chain depend on the configuration only. -/
theorem readEntries_congr {s t : State} (h : t.config = s.config) (k ps) : readEntries t k ps = readEntries s k ps := by
  induction ps generalizing k with
  | nil => rfl
  | cons p ps ih => simp [readEntries, ih, registerAddr, registerSpec, h]

/-- A chain of reads that all answer, and the chain that is left. -/
theorem readEach_answers (m : Nat) : ∀ (ps : List (Frame × Frame)) (k : Nat) (s : State) (os : List ExchangeOutcome),
    s.closed = false → s.cache.length = s.config.table.length → k + ps.length + m = s.config.table.length →
    s.environment = .draws (readAnswers ps ++ os) →
    ∃ t, readEach (List.range' k (ps.length + m)) s = readEach (List.range' (k + ps.length) m) t ∧ ReadsDone k ps os s t := by
  intro ps
  induction ps with
  | nil =>
    intro k s os hc hl hk he
    exact ⟨s, by simp, rfl, rfl, rfl, rfl, by simp [readEntries], by simpa [readAnswers] using he, rfl, by simp, fun _ _ => rfl, ⟨rfl, rfl⟩, rfl, rfl⟩
  | cons p ps ih =>
    intro k s os hc hl hk he
    have hlt : k < s.config.table.length := by rw [← hk]; simp; omega
    have he' : s.environment = .draws (.response p.1 :: .response p.2 :: (readAnswers ps ++ os)) := by
      simpa [readAnswers] using he
    have hrun : regReadRun (.index k) s = _ := (regReadRun_index hc hlt).trans (by rw [readSeq_answers _ _ _ _ _ _ he'])
    have hlen : (p :: ps).length + m = (ps.length + m) + 1 := by simp; omega
    rw [hlen, List.range'_succ, readEach, hrun]
    simp only [Machine.andThen]
    obtain ⟨t, ht, hd⟩ := ih (k + 1) (commitRead k p.2.b0 p.2.data { s with phase := .idle, txBuf := .zero, rxBuf := p.2, xlog := s.xlog ++ [.exchange (readFrame (registerAddr s k)) (.response p.1), .exchange .zero (.response p.2)], environment := .draws (readAnswers ps ++ os), remotePipeline := some .zero, drawn := s.drawn + 2 }) os
      hc (by simpa [commitRead, State.overlay, State.setCache] using hl) (by simp [commitRead, State.overlay, State.setCache] at hk ⊢; omega) rfl
    have e1 : k + 1 + ps.length = k + (p :: ps).length := by simp; omega
    refine ⟨t, by rw [← e1]; exact ht, hd.config, hd.closed, hd.pending, hd.results, ?_, hd.environment, ?_, ?_, ?_, ?_, ?_⟩
    · rw [hd.log]; simp [readEntries, commitRead, State.overlay, State.setCache]; apply readEntries_congr; rfl
    · rw [hd.cacheLength]; simp [commitRead, State.overlay, State.setCache]
    · intro r q hq
      cases r with
      | zero =>
        simp at hq; subst hq
        rw [Nat.add_zero, hd.cacheOut k (by omega)]
        have : k < s.cache.length := by omega
        simp [commitRead, State.overlay, State.setCache, this]; rfl
      | succ r =>
        have := hd.cacheIn r q (by simpa using hq)
        have e2 : k + 1 + r = k + (r + 1) := by omega
        rw [e2] at this
        rw [this]; rfl
    · intro r hr
      rw [hd.cacheOut r (by simp at hr; omega)]
      have : k ≠ r := by simp at hr; omega
      simp [commitRead, State.overlay, State.setCache, this]
    · have := hd.statusLast
      cases ps with
      | nil => simp only [List.getLast?_nil, List.getLast?_singleton] at this ⊢; exact ⟨this.2, this.1⟩
      | cons q qs =>
        rw [List.getLast?_cons_cons]
        cases hq : (q :: qs).getLast? with
        | none => simp at hq
        | some z => rw [hq] at this; exact this
    · have := hd.buffersLast
      cases ps with
      | nil => simp only [List.getLast?_nil, List.getLast?_singleton] at this ⊢; exact this
      | cons q qs =>
        rw [List.getLast?_cons_cons]
        cases hq : (q :: qs).getLast? with
        | none => simp at hq
        | some z => rw [hq] at this; exact this

/-! ### Reads and writes of one register, and a block that waits -/

/-- READ_REGISTER and REG_READ on an open block run `ReadSeq` and then what they do with its answer. -/
theorem exec_readsAt {s : State} {i : Instr} {a : Addr} (h : readsAt s i a) (hc : s.closed = false) :
    ∃ k, exec i s = .next (finish (andThen (readSeq (opOf i) a s) k)) := by
  rcases h with rfl | ⟨reg, r, rfl, hr, rfl⟩
  · exact ⟨_, by simp only [exec, execReadRegister, readRegisterRun, whileOpen, hc]; rfl⟩
  · exact ⟨_, by simp only [exec, execRegRead, regReadRun, whileOpen, hc, withRegister, hr]; rfl⟩

/-- REG_WRITE that passes its checks sends the word that the merged map encodes to (41_register R134). -/
theorem regWriteRun_of_accepts {s : State} {reg : RegRef} {r : Nat} {vs : Values} (hc : s.closed = false)
    (hr : resolve s.config.table reg = some r) (h : acceptsWrite s r vs) :
    ∃ w, (∀ register, encodeFields register s.config.encodeOverlap (mergeValues vs (mergeBase s r))
        (registerFields s r) 0 = .ok w) ∧
      regWriteRun reg vs s = andThen (writeSeq .regWrite (registerAddr s r) (toBytes w) s) fun rx s1 =>
        .done .none (overlayWrite rx s1) := by
  obtain ⟨w, hw⟩ := encodeFields_of_inRange (register := some r) (policy := s.config.encodeOverlap) h.2.2 0
  have hm : mergedWrite r vs s = andThen (writeSeq .regWrite (registerAddr s r) (toBytes w) s) fun rx s1 =>
      .done .none (overlayWrite rx s1) := by simp only [mergedWrite, hw]
  exact ⟨w, fun _ => encodeFields_register hw, by
    simp [regWriteRun, whileOpen, hc, withRegister, hr, unknownKeys_eq_nil h.1, readOnlyKeys_eq_nil h.2.1, hm]⟩

/-- WRITE_REGISTER and an accepted REG_WRITE on an open block run `WriteSeq` and then what they do with its
response. -/
theorem exec_writesAt {s : State} {i : Instr} {a : Addr} (h : writesAt s i a) (hc : s.closed = false) :
    ∃ d k, exec i s = .next (finish (andThen (writeSeq (opOf i) a d s) k)) := by
  rcases h with ⟨d, rfl⟩ | ⟨reg, r, vs, rfl, hr, ha, rfl⟩
  · exact ⟨d, _, by simp only [exec, execWriteRegister, writeRegisterRun, whileOpen, hc]; rfl⟩
  · obtain ⟨w, -, hw⟩ := regWriteRun_of_accepts hc hr ha
    exact ⟨_, _, by simp only [exec, execRegWrite, hw]; rfl⟩

/-- A state that one step leaves as it is stays so for any number of steps. -/
theorem run_of_step_fixed {s : State} (h : step s = .next s) : ∀ n, Host.Core.run Sys2Proof.core n s = .next s
  | 0 => rfl
  | n + 1 => by
    have hs : Sys2Proof.core.step s = .next s := h
    simp only [Host.Core.run, hs]
    exact run_of_step_fixed h n

end Sys2Proof.Machine
end

