-- ==== Sys2Proof/Laws/Log.lean ====
section
/-! SUPPORT. No sequence reads the exchange log (10_state R38): each runs the same from any log. -/

namespace Sys2Proof.Machine

open Sys2Proof

/-- The same end with another log. -/
def setRunLog {α : Type} (x : List LogEntry) : Run α → Run α
  | .done a s => .done a { s with xlog := x }
  | .raised e s => .raised e { s with xlog := x }
  | .stuck s => .stuck { s with xlog := x }

/-- The sequence only adds to the log, and adds the same to any log. -/
def LogFree {α : Type} (f : State → Run α) : Prop :=
  ∀ s, ∃ added, (runState (f s)).xlog = s.xlog ++ added ∧ ∀ x, f { s with xlog := x } = setRunLog (x ++ added) (f s)

/-- One sequence after another. -/
theorem LogFree.andThen {α β : Type} {f : State → Run α} {k : α → State → Run β} (h : LogFree f) (hk : ∀ a, LogFree (k a)) :
    LogFree fun s => andThen (f s) k := by
  intro s
  obtain ⟨a, ha, hx⟩ := h s
  beta_reduce
  cases hf : f s with
  | done v t =>
    obtain ⟨b, hb, hy⟩ := hk v t
    rw [hf] at ha
    refine ⟨a ++ b, ?_, fun x => ?_⟩
    · show (runState (k v t)).xlog = _
      simp only [runState] at ha; rw [hb, ha, List.append_assoc]
    · rw [hx x, hf]
      show k v { t with xlog := x ++ a } = setRunLog _ (k v t)
      rw [hy (x ++ a), List.append_assoc]
  | raised e t => rw [hf] at ha; exact ⟨a, ha, fun x => by rw [hx x, hf]; rfl⟩
  | stuck t => rw [hf] at ha; exact ⟨a, ha, fun x => by rw [hx x, hf]; rfl⟩

/-- One exchange. -/
theorem logfree_exchange (op k tx) : LogFree (exchangeOrRaise op k tx) := by
  intro s
  refine ⟨[.exchange tx (answer tx s).1], ?_, fun x => ?_⟩
  · unfold exchangeOrRaise
    cases he : exchange tx s with
    | mk o t =>
      have : t.xlog = s.xlog ++ [.exchange tx (answer tx s).1] := by have := congrArg (fun p => p.2.xlog) he; exact this.symm
      cases o <;> exact this
  · have hx : exchange tx { s with xlog := x } = ((exchange tx s).1, { (exchange tx s).2 with xlog := x ++ [.exchange tx (answer tx s).1] }) := rfl
    unfold exchangeOrRaise
    rw [hx]
    cases he : exchange tx s with
    | mk o t => cases o <;> rfl

/-- A sequence after an update that leaves the log. -/
theorem logfree_state {α : Type} (f : State → State) (hf : ∀ s x, f { s with xlog := x } = { f s with xlog := x }) (hl : ∀ s, (f s).xlog = s.xlog) (g : State → Run α) (hg : LogFree g) : LogFree fun s => g (f s) := by
  intro s
  obtain ⟨a, ha, hx⟩ := hg (f s)
  exact ⟨a, by rw [ha, hl], fun x => by beta_reduce; rw [hf, hx]⟩

/-- A value after an update that leaves the log. -/
theorem logfree_done {α : Type} (v : α) (f : State → State) (hf : ∀ s x, f { s with xlog := x } = { f s with xlog := x }) (hl : ∀ s, (f s).xlog = s.xlog) : LogFree fun s => .done v (f s) := by
  intro s; exact ⟨[], by simp [runState, hl], fun x => by beta_reduce; rw [hf, List.append_nil]; rfl⟩

/-- A sequence under a phase. -/
theorem logfree_phase {α : Type} (p : Phase) (g : State → Run α) (hg : LogFree g) : LogFree fun s => g (s.setPhase p) :=
  logfree_state (fun s => s.setPhase p) (fun _ _ => rfl) (fun _ => rfl) g hg

/-- An error. -/
theorem logfree_raised {α : Type} (e : Error) : LogFree fun s => (.raised e s : Run α) := by
  intro s; exact ⟨[], by simp [runState], fun x => by simp [setRunLog]⟩

/-- A sequence that raises precisely. -/
theorem logfree_precisely {α : Type} {f : State → Run α} (h : LogFree f) : LogFree fun s => precisely s (f s) := by
  intro s
  obtain ⟨a, ha, hx⟩ := h s
  beta_reduce
  refine ⟨a, ?_, fun x => ?_⟩
  · rw [← ha]; cases f s <;> rfl
  · rw [hx x]; cases f s <;> rfl

/-- `ReadSeq`. -/
theorem logfree_readSeq (op a) : LogFree (readSeq op a) := by
  apply logfree_precisely (f := fun s => Machine.andThen _ _)
  refine LogFree.andThen (f := fun s => exchangeOrRaise op 1 (readFrame a) (s.setPhase (.rdEx1 a))) (logfree_phase _ _ (logfree_exchange _ _ _)) fun _ => ?_
  refine LogFree.andThen (f := fun s => exchangeOrRaise op 2 .zero (s.setPhase (.rdEx2 a))) (logfree_phase _ _ (logfree_exchange _ _ _)) fun rx => ?_
  exact logfree_done _ _ (fun _ _ => rfl) (fun _ => rfl)

/-- `WriteSeq`. -/
theorem logfree_writeSeq (op a d) : LogFree (writeSeq op a d) := by
  apply logfree_precisely (f := fun s => Machine.andThen _ _)
  refine LogFree.andThen (f := fun s => exchangeOrRaise op 1 (writeFrame a d) (s.setPhase (.wrEx a))) (logfree_phase _ _ (logfree_exchange _ _ _)) fun rx => ?_
  exact logfree_done _ _ (fun _ _ => rfl) (fun _ => rfl)

/-- A sequence chosen by what is no part of the log. -/
theorem logfree_dep {α β : Type} (d : State → β) (hd : ∀ s x, d { s with xlog := x } = d s) (f : β → State → Run α) (h : ∀ b, LogFree (f b)) : LogFree fun s => f (d s) s := by
  intro s
  obtain ⟨a, ha, hx⟩ := h (d s) s
  exact ⟨a, ha, fun x => by simp only [hd]; exact hx x⟩

/-- The `Closed` check. -/
theorem logfree_whileOpen {α : Type} (op : Op) (f : State → Run α) (h : LogFree f) : LogFree fun s => whileOpen op s (f s) := by
  have := logfree_dep (fun s => s.closed) (fun _ _ => rfl) (fun (b : Bool) s => if b then (.raised (.closed op) s : Run α) else f s) (by
    intro b; cases b
    · simpa using h
    · simpa using logfree_raised _)
  exact this

/-- The resolution of a register. -/
theorem logfree_withRegister {α : Type} (reg : RegRef) (f : Nat → State → Run α) (h : ∀ r, LogFree (f r)) : LogFree fun s => withRegister reg s (fun r => f r s) := by
  have := logfree_dep (fun s => resolve s.config.table reg) (fun _ _ => rfl) (fun (b : Option Nat) s => match b with | none => (.raised (.notFoundRegister reg) s : Run α) | some r => f r s) (by
    intro b; cases b
    · exact logfree_raised _
    · exact h _)
  exact this

/-- REG_READ. -/
theorem logfree_regRead (reg) : LogFree (regReadRun reg) := by
  refine logfree_whileOpen _ _ (logfree_withRegister _ _ fun r => ?_)
  refine LogFree.andThen (f := fun s => readSeq .regRead (registerAddr s r) s) (logfree_dep (fun s => registerAddr s r) (fun _ _ => rfl) _ fun b => logfree_readSeq _ b) fun x => ?_
  exact logfree_done _ _ (fun _ _ => rfl) (fun _ => rfl)

/-- READ_ALL's chain. -/
theorem logfree_readEach : ∀ rs, LogFree (readEach rs) := by
  intro rs
  induction rs with
  | nil => exact logfree_done Payload.none (fun s => s) (fun _ _ => rfl) (fun _ => rfl)
  | cons r rs ih => exact LogFree.andThen (logfree_regRead _) fun _ => ih

end Sys2Proof.Machine
end

