-- ==== Sys2Proof/Laws/PerInstr.lean ====
section
/-! SUPPORT. One lemma per instruction: the request that spells it carries its opcode (30_encoding R88) or
is a frame the block may emit (30_encoding R85). -/

/-- The encoded request carries the instruction's opcode, or is a legal request frame, or comes in. -/
def Sys2Proof.Laws.EncodesItsOpcode.Statement (i : Sys2Proof.Instr) : Prop :=
  match Sys2Proof.encode i with
  | .command c _ => Sys2Proof.decodeOpcode c = .ok (Sys2Proof.Machine.opOf i)
  | .outbound f => Sys2Proof.Machine.legalRequest f
  | .inbound _ => Sys2Proof.Machine.opOf i = .response

namespace Sys2Proof.Laws.EncodesItsOpcode

theorem decode (w : Word) (fs : List FieldSpec) : Statement (.decode w fs) := rfl
theorem encode (vs : Values) (fs : List FieldSpec) : Statement (.encode vs fs) := rfl
theorem readRegister (a : Addr) : Statement (.readRegister a) := rfl
theorem writeRegister (a : Addr) (d : DataBytes) : Statement (.writeRegister a d) := rfl
theorem regRead (r : RegRef) : Statement (.regRead r) := rfl
theorem regWrite (r : RegRef) (vs : Values) : Statement (.regWrite r vs) := rfl
theorem regGet (r : RegRef) (n : String) : Statement (.regGet r n) := rfl
theorem statusUpdate (b : Byte) : Statement (.statusUpdate b) := rfl
theorem readAll : Statement .readAll := rfl
theorem getStatus : Statement .getStatus := rfl
theorem lookup (n : String) : Statement (.lookup n) := rfl
theorem close : Statement .close := rfl
theorem readReq (a : Addr) : Statement (.readReq a) := .inl ⟨a, rfl⟩
theorem writeReq (a : Addr) (d : Word) : Statement (.writeReq a d) := .inr ⟨a, Sys2Proof.toBytes d, rfl⟩
theorem response (st : Byte) (d : Word) : Statement (.response st d) := rfl

end Sys2Proof.Laws.EncodesItsOpcode
end

