-- ==== Sys2Proof/Tests/Slice0.lean ====
section
/-! SUPPORT. The model's own tests: the well-formedness checks on ill-formed terms, one word per constructor
written out from 30_encoding, single steps with the results of 95_test_vectors, and for every obligation with
hypotheses a witness that meets them together. -/

namespace Sys2Proof.Tests

open Sys2Proof Sys2Proof.Machine

/-! ### The fixture of 95_test_vectors section 0 -/

def cfgFields : List FieldSpec :=
  [⟨"en_x", 0, 1, .boolean, .rw⟩, ⟨"shaft", 4, 1, .boolean, .rw⟩, ⟨"diag0_pushpull", 12, 1, .boolean, .rw⟩]

def curFields : List FieldSpec :=
  [⟨"ihold", 4, 5, .uint, .rw⟩, ⟨"irun", 12, 5, .uint, .rw⟩, ⟨"iholddelay", 19, 4, .uint, .rw⟩,
    ⟨"version", 31, 8, .uint, .ro⟩]

def stsFields : List FieldSpec :=
  [⟨"cnt", 9, 10, .uint, .ro⟩, ⟨"ot", 25, 1, .boolean, .ro⟩, ⟨"en2", 27, 2, .boolean, .rw⟩,
    ⟨"top", 31, 4, .uint, .ro⟩]

def wholeFields : List FieldSpec := [⟨"val", 31, 32, .uint, .rw⟩]

def fixture : Configuration where
  table := [⟨"CFG", 0x00, cfgFields⟩, ⟨"CUR", 0x10, curFields⟩, ⟨"STS", 0x41, stsFields⟩, ⟨"WHOLE", 0x7F, wholeFields⟩]
  statusLayout := fixedFlags ++ [⟨4, "b4"⟩, ⟨5, "b5"⟩, ⟨6, "b6"⟩, ⟨7, "b7"⟩]
  encodeOverlap := .or
  overlayWriteStatus := false

/-- The start state, with a transport that gives these answers. -/
def start (answers : List ExchangeOutcome) : State :=
  { State.ofConfiguration fixture with environment := .draws answers }

/-- The start state with one cache entry. -/
def cached (r : Nat) (m : Values) (answers : List ExchangeOutcome) : State := (start answers).setCache r m

/-- The policy of 40_codec R111 that is not the hardware's. -/
def lastWinsStart : State :=
  { start [] with config := { fixture with encodeOverlap := .lastWins } }

def zeros : ExchangeOutcome := .response ⟨0, 0, 0, 0, 0⟩

/-- What a test looks at in the next state. -/
def seen {α : Type} (look : State → α) : Host.Outcome State Fault Refusal → Option α
  | .next t => some (look t)
  | .fault _ => none
  | .refused _ => none

/-- The results and the log. -/
def resultsAndLog (s : State) : List Result × List LogEntry := (s.results, s.xlog)

/-- What a register read writes. -/
def readState (s : State) : List (Option Values) × Option Byte := (s.cache, s.statusRaw)

/-! ### Well-formedness (95_test_vectors section 4) -/

theorem test_fixture_is_well_formed : fixture.wf = true := by decide
theorem test_lsb_below_zero_is_refused : FieldSpec.wf ⟨"x", 3, 5, .uint, .rw⟩ = false := by decide
theorem test_msb_32_is_refused : FieldSpec.wf ⟨"y", 32, 1, .boolean, .rw⟩ = false := by decide
theorem test_width_0_and_33_are_refused :
    FieldSpec.wf ⟨"x", 3, 0, .uint, .rw⟩ = false ∧ FieldSpec.wf ⟨"x", 31, 33, .uint, .rw⟩ = false := by decide
theorem test_repeated_field_name_is_refused :
    fieldsWf [⟨"irundelay", 3, 4, .uint, .rw⟩, ⟨"irundelay", 7, 4, .uint, .rw⟩] = false := by decide
theorem test_address_0x80_is_refused :
    RegisterSpec.wf ⟨"R", 0x80, []⟩ = false ∧ RegisterSpec.wf ⟨"R", 0x7F, []⟩ = true := by decide
theorem test_repeated_register_name_is_refused : tableWf [⟨"R", 0, []⟩, ⟨"R", 1, []⟩] = false := by decide
theorem test_repeated_address_is_allowed : tableWf [⟨"R", 5, []⟩, ⟨"Q", 5, []⟩] = true := by decide
theorem test_bad_layouts_are_refused :
    layoutWf fixedFlags = false ∧ layoutWf (fixedFlags ++ [⟨8, "b8"⟩]) = false ∧
    layoutWf (fixedFlags ++ [⟨3, "b3"⟩]) = false ∧ layoutWf (fixedFlags ++ [⟨4, "sg2"⟩]) = false ∧
    layoutWf [⟨0, "reset_flag"⟩, ⟨1, "driver_error"⟩, ⟨2, "sg2"⟩, ⟨4, "standstill"⟩, ⟨5, "b5"⟩] = false := by decide
theorem test_repeated_key_is_refused : Instr.wf (.regWrite (.index 0) [("a", .uint 1), ("a", .uint 2)]) = false := by
  decide
theorem test_ill_formed_operand_is_refused :
    Instr.wf (.decode 0 [⟨"x", 3, 5, .uint, .rw⟩]) = false ∧ Instr.wf (.encode [] [⟨"y", 32, 1, .boolean, .rw⟩]) = false := by
  decide
theorem test_construct_refuses :
    construct { fixture with table := [⟨"R", 0x80, []⟩] } = .refused .illFormedConfiguration := by rfl

/-! ### Words, bit by bit (30_encoding R81 to R83, R87, R88) -/

theorem test_command_bytes_decode :
    decode (.command 0b0000_0001#8 (.wordFields 9 cfgFields)) = .ok (.decode 9 cfgFields) ∧
    decode (.command 0b0000_0010#8 (.valuesFields [("shaft", .bool true)] cfgFields)) =
      .ok (.encode [("shaft", .bool true)] cfgFields) ∧
    decode (.command 0b0000_0011#8 (.addr 0b110_1111#7)) = .ok (.readRegister 0x6F) ∧
    decode (.command 0b0000_0100#8 (.addrData 0b000_0101#7 ⟨1, 2, 3, 4⟩)) = .ok (.writeRegister 5 ⟨1, 2, 3, 4⟩) ∧
    decode (.command 0b0000_0101#8 (.reg (.name "CFG"))) = .ok (.regRead (.name "CFG")) ∧
    decode (.command 0b0000_0110#8 (.regValues (.index 1) [("irun", .uint 31)])) =
      .ok (.regWrite (.index 1) [("irun", .uint 31)]) := by decide

theorem test_more_command_bytes_decode :
    decode (.command 0b0000_0111#8 (.regName (.index 0) "shaft")) = .ok (.regGet (.index 0) "shaft") ∧
    decode (.command 0b0000_1000#8 (.sbyte 0xA5)) = .ok (.statusUpdate 0xA5) ∧
    decode (.command 0b0000_1001#8 .none) = .ok .readAll ∧
    decode (.command 0b0000_1010#8 .none) = .ok .getStatus ∧
    decode (.command 0b0000_1011#8 (.name "CUR")) = .ok (.lookup "CUR") ∧
    decode (.command 0b0000_1100#8 .none) = .ok .close := by decide

theorem test_frames_decode :
    decode (.outbound ⟨0b0110_1111, 0, 0, 0, 0⟩) = .ok (.readReq 0b110_1111) ∧
    decode (.outbound ⟨0b1111_1111, 0xDE, 0xAD, 0xBE, 0xEF⟩) = .ok (.writeReq 0b111_1111 0xDEADBEEF) ∧
    decode (.inbound ⟨0b1000_0001, 0xCA, 0xFE, 0xBA, 0xBE⟩) = .ok (.response 0b1000_0001 0xCAFEBABE) := by decide

theorem test_reserved_words_are_refused :
    decode (.command 0x00 .none) = .error .reservedOpcode ∧ decode (.command 0x0D .none) = .error .reservedOpcode ∧
    decode (.command 0x15 (.reg (.index 0))) = .error .nonzeroUpperBits ∧
    decode (.command 0x05 .none) = .error .wrongOperands ∧
    decode (.outbound ⟨0x10, 0, 0, 0, 1⟩) = .error .reservedFrame := by decide

theorem test_table_words_decode :
    decodeTableWord 8 0x0C = some .close ∧ decodeTableWord 8 0x0F = none ∧
    decodeTableWord 40 0x6F00000000 = some (.readReq 0x6F) ∧
    decodeTableWord 40 0x8000000009 = some (.writeReq 0 9) ∧
    decodeTableWord 40 0x2205060708 = some (.response 0x22 0x05060708) := by decide

theorem test_byte_order :
    toBytes 0x12345678 = ⟨0x12, 0x34, 0x56, 0x78⟩ ∧ fromBytes ⟨0xDE, 0xAD, 0xBE, 0xEF⟩ = 0xDEADBEEF := by decide

theorem test_set_is_reg_write : encode (setCommand (.index 1) "irun" (.uint 31)) =
    .command 0x06 (.regValues (.index 1) [("irun", .uint 31)]) := by decide

/-! ### Single steps (95_test_vectors sections 1 to 3) -/

/-- Section 2.1: overlapping fields decode independently. -/
theorem test_decode_overlapping :
    seen State.results (exec (.decode 0xFFFFFFFF [⟨"a", 7, 8, .uint, .rw⟩, ⟨"b", 4, 2, .uint, .rw⟩]) (start [])) =
      some [.ok (.values [("a", .uint 255), ("b", .uint 3)])] := by decide

/-- Section 2.1: a boolean of two bits, by nonzero. -/
theorem test_decode_boolean_of_two_bits :
    seen State.results (exec (.decode 2 [⟨"b", 1, 2, .boolean, .rw⟩]) (start [])) =
      some [.ok (.values [("b", .bool true)])] := by decide

/-- Section 2.2: the two overlap policies. -/
theorem test_encode_overlap :
    seen State.results (exec (.encode [("a", .uint 0xA), ("b", .uint 3)]
        [⟨"a", 7, 4, .uint, .rw⟩, ⟨"b", 5, 4, .uint, .rw⟩]) (start [])) = some [.ok (.word 0xAC)] ∧
    seen State.results (exec (.encode [("a", .uint 0xA), ("b", .uint 3)]
        [⟨"a", 7, 4, .uint, .rw⟩, ⟨"b", 5, 4, .uint, .rw⟩]) lastWinsStart) = some [.ok (.word 0x8C)] := by decide

/-- Section 2.2: the first field out of range in list order. -/
theorem test_encode_first_out_of_range :
    seen State.results (exec (.encode [("a", .uint 16), ("b", .uint 99)]
        [⟨"a", 3, 4, .uint, .rw⟩, ⟨"b", 7, 4, .uint, .rw⟩]) (start [])) =
      some [.err (.range none "a" 16 4)] := by decide

/-- Section 2.5, first row. -/
theorem test_read_register :
    seen resultsAndLog (exec (.readRegister 0x6F)
        (start [.response ⟨0x11, 1, 2, 3, 4⟩, .response ⟨0x22, 5, 6, 7, 8⟩])) =
      some ([.ok (.readData 0x22 ⟨5, 6, 7, 8⟩)],
        [.exchange ⟨0x6F, 0, 0, 0, 0⟩ (.response ⟨0x11, 1, 2, 3, 4⟩),
          .exchange ⟨0, 0, 0, 0, 0⟩ (.response ⟨0x22, 5, 6, 7, 8⟩)]) := by decide

/-- Section 2.5: exchange #1 fails. -/
theorem test_read_register_first_fails :
    seen resultsAndLog (exec (.readRegister 0x10) (start [.transportError])) =
      some ([.err (.transport .readRegister 1 ⟨0x10, 0, 0, 0, 0⟩)],
        [.exchange ⟨0x10, 0, 0, 0, 0⟩ .transportError]) := by decide

/-- Section 2.5: address 0x7F. -/
theorem test_write_register :
    seen resultsAndLog (exec (.writeRegister 0x7F ⟨0xDE, 0xAD, 0xBE, 0xEF⟩) (start [zeros])) =
      some ([.ok .none], [.exchange ⟨0xFF, 0xDE, 0xAD, 0xBE, 0xEF⟩ zeros]) := by decide

/-- Section 2.5: no retry. -/
theorem test_write_register_fails :
    seen resultsAndLog (exec (.writeRegister 0x05 ⟨1, 2, 3, 4⟩) (start [.transportError, zeros])) =
      some ([.err (.transport .writeRegister 1 ⟨0x85, 1, 2, 3, 4⟩)],
        [.exchange ⟨0x85, 1, 2, 3, 4⟩ .transportError]) := by decide

/-- P1, first command: the cache and the status byte. -/
theorem test_reg_read :
    seen readState (exec (.regRead (.name "CFG"))
        (start [.response ⟨0x01, 0xAA, 0xBB, 0xCC, 0xDD⟩, .response ⟨0x08, 0, 0, 0x10, 0x11⟩])) =
      some ([some [("en_x", .bool true), ("shaft", .bool true), ("diag0_pushpull", .bool true)], none, none, none],
        some 0x08) := by decide

/-- Section 2.6: REG_READ CUR whose exchange #2 fails. -/
theorem test_reg_read_second_fails :
    seen State.results (exec (.regRead (.name "CUR")) (start [zeros, .transportError])) =
      some [.err (.transport .regRead 2 ⟨0, 0, 0, 0, 0⟩)] ∧
    seen readState (exec (.regRead (.name "CUR")) (start [zeros, .transportError])) =
      some ([none, none, none, none], none) := by decide

/-- 60_exceptions R207: the buffers of a REG_READ whose exchange #2 fails, and of a WRITE_REGISTER that fails. -/
theorem test_raise_writes_no_buffer :
    seen (fun t => (t.txBuf, t.rxBuf)) (exec (.regRead (.name "CUR"))
      (start [.response ⟨0x55, 9, 9, 9, 9⟩, .transportError])) = some ((start []).txBuf, (start []).rxBuf) ∧
    seen State.txBuf (exec (.writeRegister 0x05 ⟨1, 2, 3, 4⟩) (start [.transportError])) = some (start []).txBuf := by
  decide

/-- P2, second command: the merge, without the read-only field. -/
theorem test_reg_write_merges :
    seen (fun t => (t.txBuf, t.statusRaw)) (exec (.regWrite (.name "CUR") [("irun", .uint 31)])
        (cached 1 [("ihold", .uint 5), ("irun", .uint 16), ("iholddelay", .uint 10), ("version", .uint 58)]
          [.response ⟨0x01, 0x11, 0x22, 0x33, 0x44⟩])) =
      some (⟨0x90, 0x00, 0x0A, 0x1F, 0x05⟩, none) := by decide

/-- Section 2.6: Access before Range, and no exchange. -/
theorem test_reg_write_access_before_range :
    seen resultsAndLog (exec (.regWrite (.name "CUR") [("version", .uint 2), ("irun", .uint 99)]) (start [])) =
      some ([.err (.access 1 ["version"])], []) := by decide

/-- P2, last command: the cached value. -/
theorem test_reg_get :
    seen State.results (exec (.regGet (.name "CUR") "irun") (cached 1 [("ihold", .uint 5), ("irun", .uint 16)] [])) =
      some [.ok (.value (.uint 16))] := by decide

/-- Section 2.6: an unknown name before an unread register. -/
theorem test_reg_get_unknown_name :
    seen State.results (exec (.regGet (.name "CFG") "nope") (start [])) =
      some [.err (.notFoundFields 0 ["nope"])] := by decide

/-- Section 2.4: 0xA5. -/
theorem test_status_update :
    seen State.results (exec (.statusUpdate 0xA5) (start [])) =
      some [.ok (.flags [("reset_flag", true), ("driver_error", false), ("sg2", true), ("standstill", false),
        ("b4", false), ("b5", true), ("b6", false), ("b7", true)])] := by decide

/-- P6, its end: every entry from its own register, the status from the last. -/
theorem test_read_all :
    seen readState (exec .readAll
        (start [zeros, .response ⟨0x08, 0, 0, 0, 0x10⟩, zeros, .response ⟨0x04, 1, 2, 3, 4⟩, zeros,
          .response ⟨0x02, 0x12, 0, 0, 0x2A⟩, zeros, .response ⟨0x81, 0xCA, 0xFE, 0xBA, 0xBE⟩])) =
      some ([some [("en_x", .bool false), ("shaft", .bool true), ("diag0_pushpull", .bool false)],
        some [("ihold", .uint 4), ("irun", .uint 3), ("iholddelay", .uint 2), ("version", .uint 1)],
        some [("cnt", .uint 42), ("ot", .bool true), ("en2", .bool false), ("top", .uint 1)],
        some [("val", .uint 0xCAFEBABE)]], some 0x81) := by decide

/-- P3, first command: it stops at CUR's exchange #2 and keeps CFG's read. -/
theorem test_read_all_interrupted :
    seen readState (exec .readAll
        (start [.response ⟨0x55, 9, 9, 9, 9⟩, .response ⟨0x03, 0, 0, 0, 1⟩, .response ⟨0, 1, 2, 3, 4⟩, .transportError])) =
      some ([some [("en_x", .bool true), ("shaft", .bool false), ("diag0_pushpull", .bool false)], none, none, none],
        some 0x03) := by decide

/-- Section 2.7: GET_STATUS at reset. -/
theorem test_get_status_at_reset :
    seen State.results (exec .getStatus (start [])) = some [.ok (.snapshot false none none)] := by decide

/-- P1, last command. -/
theorem test_get_status :
    seen State.results (exec .getStatus ((start []).overlay 0x08)) =
      some [.ok (.snapshot true (some [("reset_flag", false), ("driver_error", false), ("sg2", false),
        ("standstill", true), ("b4", false), ("b5", false), ("b6", false), ("b7", false)]) (some 0x08))] := by decide

/-- Section 2.7: LOOKUP CUR. -/
theorem test_lookup : seen State.results (exec (.lookup "CUR") (start [])) = some [.ok (.register 1)] := by decide

/-- Section 2.7: LOOKUP NOPE. -/
theorem test_lookup_fails :
    seen State.results (exec (.lookup "NOPE") (start [])) = some [.err (.notFoundRegister (.name "NOPE"))] := by decide

/-- Section 2.7: the first CLOSE. -/
theorem test_close :
    seen resultsAndLog (exec .close (start [])) = some ([.ok .none], [.close]) := by decide

/-- Section 2.7: the second CLOSE makes no transport call. -/
theorem test_close_again :
    seen resultsAndLog (exec .close (start []).release) = some ([.err (.closed .close)], [.close]) := by decide

/-- One exchange of a read request frame (entry 2). -/
theorem test_read_req :
    seen resultsAndLog (exec (.readReq 0x6F) (start [.response ⟨1, 2, 3, 4, 5⟩])) =
      some ([.ok (.frame ⟨1, 2, 3, 4, 5⟩)], [.exchange ⟨0x6F, 0, 0, 0, 0⟩ (.response ⟨1, 2, 3, 4, 5⟩)]) := by decide

/-- One exchange of a write request frame (entry 2). -/
theorem test_write_req :
    seen State.txBuf (exec (.writeReq 0x00 0x12345678) (start [zeros])) = some ⟨0x80, 0x12, 0x34, 0x56, 0x78⟩ := by
  decide

/-- An inbound frame fills the receive buffer (entry 3). -/
theorem test_response :
    seen State.rxBuf (exec (.response 0x22 0x05060708) (start [])) = some ⟨0x22, 5, 6, 7, 8⟩ := by decide

/-- 60_exceptions R212: a step refuses command byte 0x0D. -/
theorem test_step_refuses :
    step { start [] with pending := [.command 0x0D .none] } = .refused (.noSuchCommand .reservedOpcode) := by rfl

/-- The first step after reset runs what stands in the queue, for every opcode of the table. -/
theorem test_first_step_runs : ∀ k : Fin 12,
    (seen State.phase (step (State.reset.withFetchWord 8 (k.val + 1)))).isSome = true := by decide

/-! ### Witnesses: what meets the hypotheses of each obligation, together -/

def lowField : FieldSpec := ⟨"lo", 0, 1, .boolean, .rw⟩
def highField : FieldSpec := ⟨"hi", 31, 4, .uint, .rw⟩

/-- `inRange` on a map and a list that are written out. -/
theorem in_range_of_lookups (vs : Values) (fs : List FieldSpec)
    (h : fs.all (fun f => match vs.lookup f.name with
      | none => true
      | some v => decide (num v < 2 ^ f.bitWidth)) = true) : inRange vs fs := by
  rintro f hf v ⟨-, hv⟩
  have := List.all_eq_true.1 h f hf
  rw [hv] at this
  exact of_decide_eq_true this

theorem low_high_disjoint : disjointFields [lowField, highField] := by
  simp only [disjointFields, List.pairwise_cons, covers, lowField, highField, List.mem_singleton, forall_eq,
    List.not_mem_nil, false_imp_iff, implies_true, List.Pairwise.nil, and_true]
  omega

theorem cfg_disjoint : disjointFields cfgFields := by
  simp only [disjointFields, List.pairwise_cons, covers, cfgFields, List.mem_cons, List.not_mem_nil, or_false,
    forall_eq_or_imp, forall_eq, false_imp_iff, implies_true, List.Pairwise.nil, and_true]
  refine ⟨⟨?_, ?_⟩, ?_⟩ <;> intro i <;> omega

theorem low_high_in_range : inRange [("lo", .bool true), ("hi", .uint 15)] [lowField, highField] := by
  exact in_range_of_lookups _ _ (by decide)

theorem witness_DecodeGivesEachFieldItsBits : fieldsWf curFields = true ∧ fieldsWf [] = true := by decide

theorem witness_DecodedFieldIsIndependent :
    fieldsWf [lowField, highField] = true ∧ fieldsWf curFields = true ∧ highField ∈ [lowField, highField] ∧
    ⟨"ihold", 4, 5, .uint, .rw⟩ ∈ curFields ∧ highField.kind = .uint ∧
    wordBits 0xF0000000 highField = wordBits 0x0000000F ⟨"ihold", 4, 5, .uint, .rw⟩ := by decide

theorem witness_EncodeOrsTheFields :
    fieldsWf [lowField, highField] = true ∧ inRange [("lo", .bool true), ("hi", .uint 15)] [lowField, highField] ∧
    (start []).config.encodeOverlap = .or := ⟨by decide, low_high_in_range, rfl⟩

/-- The last clauses at bit 31, which a field decides, and at bit 1, which none covers. -/
theorem witness_EncodeLastFieldWins :
    fieldsWf [lowField, highField] = true ∧ inRange [("lo", .bool true), ("hi", .uint 15)] [lowField, highField] ∧
    lastWinsStart.config.encodeOverlap = .lastWins ∧
    encodes [("lo", .bool true), ("hi", .uint 15)] highField (.uint 15) ∧ covers highField 31 ∧
    ∀ f ∈ [lowField, highField], ¬ covers f 1 :=
  ⟨by decide, low_high_in_range, rfl, ⟨rfl, rfl⟩, by simp [covers, highField],
    by simp [covers, lowField, highField]⟩

theorem witness_OverlapPoliciesAgreeOnDisjointFields :
    fieldsWf [lowField, highField] = true ∧ inRange [("lo", .bool true), ("hi", .uint 15)] [lowField, highField] ∧
    disjointFields [lowField, highField] ∧ (start []).config.encodeOverlap = .or ∧
    lastWinsStart.config.encodeOverlap = .lastWins := ⟨by decide, low_high_in_range, low_high_disjoint, rfl, rfl⟩

/-- A list where every value fits, and one whose second field has a value too wide for it. -/
theorem witness_EncodeNamesTheFirstFieldOutOfRange :
    inRange [("lo", .bool true), ("hi", .uint 15)] [lowField, highField] ∧
    inRange [("lo", .uint 1), ("hi", .uint 16)] [lowField] ∧
    encodes [("lo", .uint 1), ("hi", .uint 16)] highField (.uint 16) ∧ 2 ^ highField.bitWidth ≤ num (.uint 16) :=
  ⟨low_high_in_range, in_range_of_lookups _ _ (by decide), ⟨rfl, rfl⟩, by decide⟩

theorem witness_RangeLaw :
    (lowField.wf = true ∧ lowField.access = .rw) ∧
    FieldSpec.wf ⟨"val", 31, 32, .uint, .rw⟩ = true := by decide

theorem witness_DecodeOfEncodeGivesTheValuesBack :
    fieldsWf [lowField, highField] = true ∧ disjointFields [lowField, highField] ∧
    (∀ f ∈ [lowField, highField], f.access = .rw) ∧
    assigns [("hi", .uint 15), ("lo", .bool true)] [lowField, highField] := by
  refine ⟨by decide, low_high_disjoint, by decide, by decide, fun k => ?_, ?_⟩
  · simp [keys, fieldNames, lowField, highField, or_comm]
  · have h1 : List.lookup "lo" [("hi", Value.uint 15), ("lo", Value.bool true)] = some (.bool true) := by decide
    simp [lowField, highField, fits, h1]

theorem witness_EncodeOfDecodeKeepsTheCoveredBits :
    fieldsWf [highField] = true ∧ disjointFields [highField] ∧ (∀ f ∈ [highField], f.access = .rw) ∧
    ∀ f ∈ [highField], f.kind = .uint := ⟨by decide, by simp [disjointFields], by decide, by decide⟩

theorem witness_PureCommandsReadNoBlockState :
    opOf (.statusUpdate 0xFF) ∈ pureOps ∧ (start []).config = (start []).release.config := ⟨by decide, rfl⟩

theorem witness_DecodeOfEncodedInstruction :
    Instr.wf (.encode [("en_x", .bool true)] cfgFields) = true ∧ Instr.wf (.writeReq 0x7F 0xFFFFFFFF) = true := by decide

theorem witness_FrameOfDecodedRequest :
    decode (.outbound ⟨0x7F, 0, 0, 0, 0⟩) = .ok (.readReq 0x7F) ∧
    decode (.outbound ⟨0x80, 0, 0, 0, 0⟩) = .ok (.writeReq 0 0) := by decide

theorem witness_UnspelledCommandsAreRefused :
    (start []).phase = .idle ∧ (BitVec.toNat (0x00 : Byte) = 0) ∧ 13 ≤ BitVec.toNat (0x0D : Byte) ∧
    13 ≤ BitVec.toNat (0xFF : Byte) ∧ fieldsWf [⟨"x", 3, 5, .uint, .rw⟩] = false := by decide

theorem witness_StepRunsTheDecodedInstruction :
    (start []).phase = .idle ∧ [Request.command 0x0A .none] = Request.command 0x0A .none :: [] ∧
    decode (.command 0x0A .none) = .ok .getStatus := by decide

theorem witness_BusyOrUnaskedBlockWaits :
    ((start []).setPhase (.wrEx 0)).phase ≠ .idle ∧ (start []).phase = .idle ∧ (start []).pending = [] := by decide

/-- A step that closes an open block, and one on a closed block. -/
theorem witness_OnlyCloseCloses :
    (∃ t, step { start [] with pending := [.command 0x0C .none] } = .next t ∧ (start []).closed = false ∧ t.closed = true) ∧
    ∃ t, step (start []).release = .next t ∧ (start []).release.closed = true :=
  ⟨⟨_, rfl, rfl, rfl⟩, ⟨_, rfl, rfl⟩⟩

theorem witness_ExactlyOneResult : opOf (.readRegister 0) ≠ .response := by decide

theorem witness_OnlyLegalFramesAreEmitted :
    ∃ t, exec (.writeRegister 0x7F ⟨1, 2, 3, 4⟩) (start [zeros]) = .next t := ⟨_, rfl⟩

theorem witness_ExchangesPerInstruction : ∃ t, exec .readAll (start []) = .next t := ⟨_, rfl⟩

/-- An instruction that leaves the cache, and a read of register 3 beside register 0. -/
theorem witness_CacheIsWrittenByReadsOnly :
    (∃ t, exec .close (start []) = .next t ∧ opOf .close ≠ .regRead ∧ opOf .close ≠ .readAll) ∧
    ∃ t, exec (.regRead (.index 3)) (start [zeros, zeros]) = .next t ∧
      resolve (start []).config.table (.index 3) = some 3 ∧ 0 ≠ 3 :=
  ⟨⟨_, rfl, by decide, by decide⟩, ⟨_, rfl, by decide, by decide⟩⟩

theorem witness_StatusIsWrittenByReadsOnly :
    ∃ t, exec (.regWrite (.index 0) []) (start [zeros]) = .next t ∧ opOf (.regWrite (.index 0) []) ≠ .regRead ∧
      opOf (.regWrite (.index 0) []) ≠ .readAll ∧ (start [zeros]).config.overlayWriteStatus = false :=
  ⟨_, rfl, by decide, by decide, rfl⟩

/-- One instruction for each clause: one without exchange, a CLOSE that adds to the log without exchange, and an
inbound frame. -/
theorem witness_FrameOfEveryInstruction :
    (∃ t, exec .getStatus (start []) = .next t ∧ opOf .getStatus ≠ .close ∧ opOf .getStatus ≠ .response ∧
      t.xlog = (start []).xlog ++ [] ∧ exchangeCount [] = 0) ∧
    (∃ t, exec .close (start []) = .next t ∧ opOf .close ≠ .response ∧ t.xlog = (start []).xlog ++ [.close] ∧
      exchangeCount [.close] = 0) ∧
    ∃ t, exec (.response 0 0) (start []) = .next t ∧ opOf (.response 0 0) = .response :=
  ⟨⟨_, rfl, by decide, by decide, rfl, rfl⟩, ⟨_, rfl, by decide, rfl, rfl⟩, ⟨_, rfl, rfl⟩⟩

theorem witness_ClosedBlockRaisesClosedError : opOf .close ∈ facadeOps ∧ (start []).release.closed = true := by decide

theorem witness_OtherErrorsTouchNothing :
    ∃ t, exec (.regGet (.index 0) "shaft") (start []) = .next t ∧
      t.results = (start []).results ++ [.err (.notFoundUnread 0)] ∧ isTransportError (.notFoundUnread 0) = false :=
  ⟨_, rfl, by decide, rfl⟩

theorem witness_TransportErrorWritesNoBlockState :
    ∃ t, exec (.regRead (.index 0)) (start [.transportError]) = .next t ∧
      t.results = (start []).results ++ [.err (.transport .regRead 1 .zero)] ∧ opOf (.regRead (.index 0)) ≠ .readAll :=
  ⟨_, rfl, by decide, by decide⟩

/-- One value of `values` for each clause: an unknown register, an unknown name, a read-only name, a value at
the limit of its field. -/
theorem witness_RegWriteChecksInOrder :
    (start []).closed = false ∧ resolve fixture.table (.index 4) = none ∧ resolve fixture.table (.index 3) = some 3 ∧
    resolve fixture.table (.name "CUR") = some 1 ∧
    (∃ k ∈ keys [("nope", .uint 1)], k ∉ fieldNames (registerFields (start []) 1)) ∧
    ((∀ k ∈ keys [("version", .uint 2)], k ∈ fieldNames (registerFields (start []) 1)) ∧
      ∃ f ∈ registerFields (start []) 1, f.access = .ro ∧ f.name ∈ keys [("version", .uint 2)]) ∧
    ((∀ k ∈ keys [("ihold", .uint 32)], k ∈ fieldNames (registerFields (start []) 1)) ∧
      (∀ g ∈ registerFields (start []) 1, g.access = .ro → g.name ∉ keys [("ihold", .uint 32)]) ∧
      registerFields (start []) 1 = [] ++ ⟨"ihold", 4, 5, .uint, .rw⟩ :: curFields.tail ∧
      inRange (mergeValues [("ihold", .uint 32)] (mergeBase (start []) 1)) [] ∧
      encodes (mergeValues [("ihold", .uint 32)] (mergeBase (start []) 1)) ⟨"ihold", 4, 5, .uint, .rw⟩ (.uint 32) ∧
      2 ^ 5 ≤ num (.uint 32)) :=
  ⟨rfl, by decide, by decide, by decide, by decide, by decide, by decide, by decide, by decide,
    by simp [inRange], ⟨rfl, by decide⟩, by decide⟩

theorem fixture_inv (answers : List ExchangeOutcome) : Inv (start answers) where
  configWf := test_fixture_is_well_formed
  cacheLength := rfl
  cacheDecoded := by
    intro r m h
    simp [start, State.ofConfiguration, List.getElem?_replicate] at h
  statusOfRaw := rfl
  heldUnlessClosed := rfl
  framesLegal := by simp [start, State.ofConfiguration]
  closedIffLogged := by simp [start, State.ofConfiguration]
  closeIsLast := by simp [start, State.ofConfiguration]
  busyOnlyIfStuck := fun h => (h rfl).elim

theorem witness_CachedValuesNeverRaiseRangeError :
    Inv (start []) ∧ ∃ t, exec (.regWrite (.index 0) [("shaft", .uint 2)]) (start []) = .next t ∧
      t.results = (start []).results ++ [.err (.range (some 0) "shaft" 2 1)] :=
  ⟨fixture_inv [], _, rfl, by decide⟩

/-- READ_REGISTER, TwoReadFramesMakeARead: an open block and two responses. -/
theorem witness_ReadRegisterReturnsTheSecondResponse :
    (start [zeros, zeros]).closed = false ∧
    (start [zeros, zeros]).environment = .draws (zeros :: zeros :: []) := ⟨rfl, rfl⟩

theorem witness_TwoReadFramesMakeARead :
    (start [zeros, zeros]).closed = false ∧
    (start [zeros, zeros]).environment = .draws (zeros :: zeros :: []) := ⟨rfl, rfl⟩

/-- Both instructions of the statement, and both clauses. -/
theorem witness_FailedReadStopsAtTheFailedExchange :
    (start [.transportError]).closed = false ∧
    (Instr.readRegister 0x7F = .readRegister 0x7F) ∧
    (resolve fixture.table (.index 3) = some 3 ∧ (0x7F : Addr) = registerAddr (start []) 3) ∧
    (start [.transportError]).environment = .draws (.transportError :: []) ∧
    (start [zeros, .transportError]).environment = .draws (zeros :: .transportError :: []) :=
  ⟨rfl, rfl, ⟨by decide, by decide⟩, rfl, rfl⟩

theorem witness_WriteRegisterSendsItsFrame :
    (start [zeros]).closed = false ∧ (start [zeros]).environment = .draws (zeros :: []) := ⟨rfl, rfl⟩

/-- A block under the reference responder, whose remote words are all zero. -/
def referenceStart : State := { start [] with environment := .reference (Vector.replicate 128 0) }

theorem witness_ReferenceReadReturnsTheRemoteWord :
    referenceStart.closed = false ∧ referenceStart.environment = .reference (Vector.replicate 128 0) := ⟨rfl, rfl⟩

theorem witness_ReferenceReadAfterWrite :
    referenceStart.closed = false ∧ referenceStart.environment = .reference (Vector.replicate 128 0) := ⟨rfl, rfl⟩

theorem witness_ReadRequestFrameIsExchanged :
    (start [zeros]).closed = false ∧ (start [zeros]).environment = .draws (zeros :: []) := ⟨rfl, rfl⟩

theorem witness_WriteRequestFrameIsExchanged :
    (start [zeros]).closed = false ∧ (start [zeros]).environment = .draws (zeros :: []) := ⟨rfl, rfl⟩

theorem witness_RegReadCommitsTheSecondResponse :
    (start [zeros, zeros]).closed = false ∧ resolve (start []).config.table (.name "WHOLE") = some 3 ∧
    (start [zeros, zeros]).environment = .draws (zeros :: zeros :: []) := ⟨rfl, by decide, rfl⟩

/-- `shaft` of the register CFG, which was never read, can be written. -/
theorem cfg_accepts_shaft (s : State) (hr : registerFields s 0 = cfgFields)
    (hm : mergeBase s 0 = []) : acceptsWrite s 0 [("shaft", .bool true)] := by
  unfold acceptsWrite
  rw [hr, hm]
  exact ⟨by decide, by decide, in_range_of_lookups _ _ (by decide)⟩

theorem witness_RegWriteSendsTheMergedWord :
    (start [zeros]).closed = false ∧ resolve (start []).config.table (.name "CFG") = some 0 ∧
    (∀ k ∈ keys [("shaft", .bool true)], k ∈ fieldNames (registerFields (start []) 0)) ∧
    (∀ f ∈ registerFields (start []) 0, f.access = .ro → f.name ∉ keys [("shaft", .bool true)]) ∧
    inRange (mergeValues [("shaft", .bool true)] (mergeBase (start []) 0)) (registerFields (start []) 0) ∧
    (start [zeros]).environment = .draws (zeros :: []) :=
  have h := cfg_accepts_shaft (start []) rfl rfl
  ⟨rfl, by decide, h.1, h.2.1, h.2.2, rfl⟩

/-- Every instruction of the statement at an end of the address range, and every clause. -/
theorem witness_ExchangeThatNeverReturnsSticks :
    (start [.noReturn]).closed = false ∧
    (readsAt (start [.noReturn]) (.readRegister 0x7F) 0x7F ∧ readsAt (start [.noReturn]) (.regRead (.index 3)) 0x7F) ∧
    (writesAt (start [.noReturn]) (.writeRegister 0 ⟨0, 0, 0, 0⟩) 0 ∧
      writesAt (start [.noReturn]) (.regWrite (.index 0) [("shaft", .bool true)]) 0) ∧
    (start [.noReturn]).environment = .draws (.noReturn :: []) ∧
    ((start [zeros, .noReturn]).closed = false ∧ readsAt (start [zeros, .noReturn]) (.regRead (.index 3)) 0x7F ∧
      (start [zeros, .noReturn]).environment = .draws (zeros :: .noReturn :: [])) :=
  ⟨rfl, ⟨.inl rfl, .inr ⟨_, 3, rfl, by decide, by decide⟩⟩,
    ⟨.inl ⟨_, rfl⟩, .inr ⟨_, 0, _, rfl, by decide, cfg_accepts_shaft _ rfl rfl, by decide⟩⟩, rfl,
    rfl, .inr ⟨_, 3, rfl, by decide, by decide⟩, rfl⟩

/-- Both clauses, the second one also with the write responses overlaid. -/
theorem witness_FailedWriteIsNotRetried :
    (start [.transportError]).closed = false ∧
    (start [.transportError]).environment = .draws (.transportError :: []) ∧
    (resolve fixture.table (.index 0) = some 0 ∧ acceptsWrite (start [.transportError]) 0 [("shaft", .bool true)]) ∧
    acceptsWrite { start [.transportError] with config := { fixture with overlayWriteStatus := true } } 0
      [("shaft", .bool true)] :=
  ⟨rfl, rfl, ⟨by decide, cfg_accepts_shaft _ rfl rfl⟩, cfg_accepts_shaft _ rfl rfl⟩

/-- One state for each clause. -/
theorem witness_RegGetReadsTheCache :
    (start []).closed = false ∧ resolve (start []).config.table (.name "XXX") = none ∧
    resolve (start []).config.table (.index 0) = some 0 ∧
    "nope" ∉ fieldNames (registerFields (start []) 0) ∧ "shaft" ∈ fieldNames (registerFields (start []) 0) ∧
    cacheEntry (start []) 0 = none ∧
    cacheEntry (cached 0 [("shaft", .bool true)] []) 0 = some [("shaft", .bool true)] ∧
    List.lookup "shaft" [("shaft", Value.bool true)] = some (.bool true) := by decide

theorem witness_ReadThenGetGivesTheField :
    Inv (start [zeros, zeros]) ∧ (start [zeros, zeros]).closed = false ∧
    resolve (start []).config.table (.index 3) = some 3 ∧
    ⟨"val", 31, 32, .uint, .rw⟩ ∈ registerFields (start []) 3 ∧
    (start [zeros, zeros]).environment = .draws (zeros :: zeros :: []) :=
  ⟨fixture_inv _, rfl, by decide, by decide, rfl⟩

theorem witness_RegReadIsAllOrNothing :
    (start []).closed = false ∧ resolve (start []).config.table (.index 4) = none := by decide

theorem witness_WriteDoesNotChangeWhatGetReturns :
    ∃ t, exec (.regWrite (.index 0) [("shaft", .bool true)]) (start [zeros]) = .next t := ⟨_, rfl⟩

theorem witness_StaleMergeForgetsTheFirstWrite :
    (start [zeros, zeros]).closed = false ∧ resolve (start []).config.table (.index 0) = some 0 ∧
    (start [zeros, zeros]).environment = .draws (zeros :: zeros :: []) ∧
    ∀ vs, vs = [("shaft", .bool true)] ∨ vs = [("shaft", .bool true)] →
      (∀ k ∈ keys vs, k ∈ fieldNames (registerFields (start []) 0)) ∧
      (∀ f ∈ registerFields (start []) 0, f.access = .ro → f.name ∉ keys vs) ∧
      inRange (mergeValues vs (mergeBase (start []) 0)) (registerFields (start []) 0) := by
  refine ⟨rfl, by decide, rfl, ?_⟩
  rintro vs (rfl | rfl) <;> exact ⟨by decide, by decide, witness_RegWriteSendsTheMergedWord.2.2.2.2.1⟩

/-- Register CFG, whose `en_x` is cached as true, written through `shaft`. -/
theorem witness_BooleanWritesBackAsZeroOrOne :
    fixture.wf = true ∧ (cached 0 [("en_x", .bool true)] [zeros]).closed = false ∧
    resolve fixture.table (.index 0) = some 0 ∧
    disjointFields (registerFields (start []) 0) ∧
    ⟨"en_x", 0, 1, .boolean, .rw⟩ ∈ registerFields (start []) 0 ∧
    cacheEntry (cached 0 [("en_x", .bool true)] [zeros]) 0 = some [("en_x", .bool true)] ∧
    List.lookup "en_x" [("en_x", Value.bool true)] = some (.bool true) ∧
    "en_x" ∉ keys [("shaft", .bool true)] ∧
    inRange (mergeValues [("shaft", .bool true)] (mergeBase (cached 0 [("en_x", .bool true)] [zeros]) 0))
      (registerFields (start []) 0) := by
  have hf : registerFields (start []) 0 = cfgFields := by decide
  have hm : mergeValues [("shaft", .bool true)] (mergeBase (cached 0 [("en_x", .bool true)] [zeros]) 0) =
      [("shaft", .bool true), ("en_x", .bool true)] := by decide
  refine ⟨by decide, rfl, by decide, ?_, by decide, by decide, by decide, by decide, ?_⟩
  · rw [hf]; exact cfg_disjoint
  · rw [hm, hf]; exact in_range_of_lookups _ _ (by decide)

theorem witness_StatusUpdateGivesTheNamedBits : layoutWf (start []).config.statusLayout = true := by decide

/-- One state for each clause. -/
theorem witness_GetStatusAnswersTheSnapshot :
    (start []).release.closed = true ∧ (start []).closed = false ∧ (start []).status = none ∧
    ((start []).overlay 0xFF).closed = false ∧
    ((start []).overlay 0xFF).status = some (statusFlags fixture.statusLayout 0xFF) := ⟨rfl, rfl, rfl, rfl, rfl⟩

/-- The first and the last register, and a name that none has. -/
theorem witness_LookupFindsTheNamedRegister :
    (start []).closed = false ∧ tableWf (start []).config.table = true ∧
    ((start []).config.table[0]?.map RegisterSpec.name = some "CFG" ∧
      (start []).config.table[3]?.map RegisterSpec.name = some "WHOLE") ∧
    ∀ R ∈ (start []).config.table, R.name ≠ "NOPE" := by decide

def fourReads : List (Frame × Frame) := List.replicate 4 (.zero, .zero)

theorem witness_ReadAllReadsTheTableInOrder :
    (start (readAnswers fourReads)).closed = false ∧
    (start []).cache.length = (start []).config.table.length ∧ fourReads.length = (start []).config.table.length ∧
    (start (readAnswers fourReads)).environment = .draws (readAnswers fourReads ++ []) := by decide

/-- The first register's first exchange fails, and the last register's second one. -/
theorem witness_ReadAllStopsAtTheFirstError :
    (start []).closed = false ∧ (start []).cache.length = (start []).config.table.length ∧
    (([] : List (Frame × Frame)).length < (start []).config.table.length ∧ ([] : List Frame).length ≤ 1 ∧
      (start [.transportError]).environment =
        .draws (readAnswers [] ++ ([] : List Frame).map .response ++ .transportError :: [])) ∧
    ((fourReads.take 3).length < (start []).config.table.length ∧ [Frame.zero].length ≤ 1 ∧
      (start (readAnswers (fourReads.take 3) ++ [zeros, .transportError])).environment =
        .draws (readAnswers (fourReads.take 3) ++ [Frame.zero].map .response ++ .transportError :: [])) := by decide

theorem witness_CloseReleasesTheTransport : (start []).closed = false := rfl

/-- One configuration for each clause. -/
theorem witness_ConstructionGivesTheResetState :
    Configuration.wf { fixture with table := [⟨"R", 0x80, []⟩] } = false ∧
    Configuration.wf { fixture with table := [⟨"R", 0x7F, []⟩] } = true := by decide

theorem witness_ConstructionMeetsTheInvariant : construct fixture = .next (State.ofConfiguration fixture) := by rfl

theorem witness_EveryStepKeepsTheInvariant : Inv (start []) ∧ ∃ t, step (start []) = .next t :=
  ⟨fixture_inv [], _, rfl⟩

end Sys2Proof.Tests
end

section
/-! Proofs about how a command ends: with one result, or stuck in an exchange (00_scope R12, 43_transaction R160). -/

namespace Sys2Proof.Machine

open Sys2Proof

/-- The block has answered once more than in `s`, and is free for the next command. -/
def AnswersOnce (s t : State) : Prop := ∃ r, t.results = s.results ++ [r] ∧ t.phase = .idle

/-- A sequence that gave no result of its own ends in one, OK or an error (00_scope R12). -/
theorem answersOnce_giveOk {s c : State} (p : Payload) (h : c.results = s.results) : AnswersOnce s (giveOk p c) :=
  ⟨.ok p, by simp [h], rfl⟩

theorem answersOnce_takeError {s u : State} (e : Error) (h : u.results = s.results) :
    AnswersOnce s (takeError e u) :=
  ⟨.err e, by simp [h], rfl⟩

theorem answersOnce_answered (s : State) (r : Result) : AnswersOnce s (answered s r) := ⟨r, rfl, rfl⟩

/-- CLOSE is the only instruction of its name. -/
theorem eq_close_of_opOf : ∀ {i : Instr}, opOf i = .close → i = .close
  | .close, _ => rfl

/-- CLOSE always returns: it performs no exchange (44_register_map R186, R188). -/
theorem exec_close_answersOnce (s : State) : ∃ t, exec .close s = .next t ∧ AnswersOnce s t := by
  refine ⟨_, exec_close s, ?_⟩
  split
  · exact answersOnce_answered s _
  · exact answersOnce_giveOk .none (State.release_results s)

/-- 00_scope R12, 43_transaction R160 (c): a command is answered once or sticks in an exchange without an answer. -/
theorem exec_answersOnce_or_sticks (i : Instr) (s : State) (h : opOf i ≠ .response) :
    ∃ t, exec i s = .next t ∧ (AnswersOnce s t ∨ t.results = s.results ∧ Sticks t) := by
  by_cases hclose : opOf i = .close
  · obtain rfl : i = .close := by cases i <;> simp_all [opOf]
    obtain ⟨t, ht, hans⟩ := exec_close_answersOnce s
    exact ⟨t, ht, .inl hans⟩
  · obtain ⟨t, ht, hend⟩ := exec_general i s hclose h
    refine ⟨t, ht, ?_⟩
    obtain ⟨r, -, rfl⟩ | ⟨-, _, p, c, -, hc, rfl⟩ | ⟨-, _, e, u, -, hu, -, rfl⟩ | ⟨-, _, u, -, hu, hstuck, rfl⟩ := hend
    · exact .inl (answersOnce_answered s r)
    · exact .inl (answersOnce_giveOk p hc.results)
    · exact .inl (answersOnce_takeError e hu.results)
    · exact .inr ⟨hu.results, hstuck⟩

/-- Settles O20: every end of an instruction but RESPONSE is an answer on an idle block or an exchange that never
returned. -/
theorem exactlyOneResult : Obligations.ExactlyOneResult :=
  exec_answersOnce_or_sticks

end Sys2Proof.Machine
end

section
/-! Proofs about the session invariant `Inv`: construction meets it and every step keeps it (10_state R28 to R35,
R43). -/

namespace Sys2Proof.Machine

open Sys2Proof

/-! ### How an instruction and a step reach their next state -/

/-- READ_ALL is the only instruction of its name. -/
theorem eq_readAll_of_opOf : ∀ {i : Instr}, opOf i = .readAll → i = .readAll
  | .readAll, _ => rfl

/-- An inbound frame is the only instruction of its name. -/
theorem eq_response_of_opOf : ∀ {i : Instr}, opOf i = .response → ∃ st d, i = .response st d
  | .response st d, _ => ⟨st, d, rfl⟩

/-- CLOSE, an inbound frame and READ_ALL by themselves, and how every other instruction ends. -/
theorem exec_cases {i : Instr} {s t : State} (h : exec i s = .next t) :
    (i = .close ∧ t = if s.closed then answered s (.err (.closed .close)) else giveOk .none s.release) ∨
    (∃ st d, i = .response st d ∧ t = s.setRx (responseFrame st (toBytes d))) ∨
    (i = .readAll ∧ t = if s.closed then answered s (.err (.closed .readAll))
      else finish (readEach (List.range s.config.table.length) s)) ∨
    Ends i s t := by
  by_cases hclose : opOf i = .close
  · obtain rfl := eq_close_of_opOf hclose
    exact .inl ⟨rfl, Host.Outcome.next.inj (h.symm.trans (exec_close s))⟩
  by_cases hresponse : opOf i = .response
  · obtain ⟨st, d, rfl⟩ := eq_response_of_opOf hresponse
    exact .inr (.inl ⟨st, d, rfl, (Host.Outcome.next.inj h).symm⟩)
  by_cases hreadAll : opOf i = .readAll
  · obtain rfl := eq_readAll_of_opOf hreadAll
    exact .inr (.inr (.inl ⟨rfl, Host.Outcome.next.inj (h.symm.trans (exec_readAll s))⟩))
  obtain ⟨u, hu, hends⟩ := exec_ends i s hreadAll hclose hresponse
  obtain rfl : t = u := Host.Outcome.next.inj (h.symm.trans hu)
  exact .inr (.inr (.inr hends))

/-- What the commit of an instruction can be: of a read, of a write, or nothing (41_register R130, R139). -/
theorem Commits.cases {i : Instr} {s u c : State} (h : Commits i s u c) :
    (∃ reg r st d, i = .regRead reg ∧ resolve s.config.table reg = some r ∧ c = commitRead r st d u) ∨
    (∃ rx, opOf i = .regWrite ∧ c = overlayWrite rx u) ∨ c = u := by
  unfold Commits at h
  split at h
  · obtain ⟨r, st, d, hr, hc⟩ := h
    exact .inl ⟨_, r, st, d, rfl, hr, hc⟩
  · obtain ⟨rx, hc⟩ := h
    exact .inr (.inl ⟨rx, rfl, hc⟩)
  · exact .inr (.inr h)

/-- A step that gives a next state waited, or ran the instruction at the head of the queue (20_memory R62). -/
theorem step_cases {s t : State} (h : step s = .next t) :
    t = s ∨ ∃ r rest i, s.phase = .idle ∧ s.pending = r :: rest ∧ decode r = .ok i ∧
      exec i { s with pending := rest } = .next t := by
  unfold step at h
  cases hfetch : fetch s with
  | waits => rw [hfetch] at h; exact .inl (Host.Outcome.next.inj h).symm
  | rejected why => rw [hfetch] at h; cases h
  | takes i s' =>
    rw [hfetch] at h
    obtain ⟨r, rest, hidle, hpending, hdecode, rfl⟩ := fetch_takes hfetch
    exact .inr ⟨r, rest, i, hidle, hpending, hdecode, h⟩

/-! ### The invariant inside a command -/

/-- The invariant but for its clause on the phase: what holds between the exchanges of one command too. -/
def InvButPhase (s : State) : Prop := Inv (s.setPhase .idle)

/-- An idle block meets the clause on the phase, whatever results it gave. -/
theorem InvButPhase.idle {s : State} (h : InvButPhase s) (rs : List Result) :
    Inv { s with phase := .idle, results := rs } :=
  { h with busyOnlyIfStuck := fun hbusy => (hbusy rfl).elim }

/-- So does a block that is stuck in an exchange. -/
theorem InvButPhase.of_sticks {s : State} (h : InvButPhase s) (hstuck : Sticks s) : Inv s :=
  { h with busyOnlyIfStuck := fun _ => hstuck.2 }

theorem Inv.butPhase {s : State} (h : Inv s) : InvButPhase s :=
  { h with busyOnlyIfStuck := fun hbusy => (hbusy rfl).elim }

/-- The log of an open block holds no close (44_register_map R186). -/
theorem InvButPhase.close_not_logged {s : State} (h : InvButPhase s) (ho : s.closed = false) :
    LogEntry.close ∉ s.xlog := fun hmem =>
  Bool.false_ne_true (ho.symm.trans (h.closedIffLogged.2 hmem))

/-- The exchanges of an open block emit legal frames only and write nothing else of which the invariant speaks. -/
theorem Traffic.invButPhase {n : Nat} {s u : State} (h : Traffic n s u) (ho : s.closed = false)
    (hs : InvButPhase s) : InvButPhase u := by
  obtain ⟨added, hlog, -, hadded⟩ := h.log
  have hopen : u.closed = false := h.closed.trans ho
  have hnoClose : LogEntry.close ∉ u.xlog := by
    rw [hlog, List.mem_append]
    rintro (hold | hnew)
    · exact hs.close_not_logged ho hold
    · obtain ⟨_, _, he, -⟩ := hadded _ hnew
      cases he
  exact
    { configWf := by simpa [h.config] using hs.configWf
      cacheLength := by simpa [h.config, h.cache] using hs.cacheLength
      cacheDecoded := by simpa [h.config, h.cache, registerFields, registerSpec] using hs.cacheDecoded
      statusOfRaw := by simpa [h.config, h.status, h.statusRaw] using hs.statusOfRaw
      heldUnlessClosed := by simpa [h.closed, h.transportHeld] using hs.heldUnlessClosed
      framesLegal := by
        intro tx o hmem
        rcases List.mem_append.1 (hlog ▸ hmem) with hold | hnew
        · exact hs.framesLegal tx o hold
        · obtain ⟨_, _, he, hlegal⟩ := hadded _ hnew
          cases he
          exact hlegal
      closedIffLogged := by simp [hopen, hnoClose]
      closeIsLast := fun before after he => (hnoClose (he ▸ by simp)).elim
      busyOnlyIfStuck := fun hbusy => (hbusy rfl).elim }

/-- The overlay of a status byte decodes it (10_state R32). -/
theorem InvButPhase.overlay {s : State} (h : InvButPhase s) (b : Byte) : InvButPhase (s.overlay b) :=
  { h with statusOfRaw := rfl }

/-- The commit of a read caches a map decoded from one word (10_state R29, 41_register R132). -/
theorem InvButPhase.commitRead {s : State} (h : InvButPhase s) (r : Nat) (st : Byte) (d : DataBytes) :
    InvButPhase (commitRead r st d s) := by
  refine InvButPhase.overlay (s := s.setCache r _) { h with cacheLength := ?_, cacheDecoded := ?_ } st
  · simpa using h.cacheLength
  · intro r' m hm
    by_cases hr : r = r'
    · subst hr
      have hset : r < s.cache.length ∧ decodeFields (fromBytes d) (registerFields s r) = m := by
        simpa [List.getElem?_set] using hm
      exact ⟨fromBytes d, hset.2.symm⟩
    · exact h.cacheDecoded r' m (by simpa [hr] using hm)

theorem InvButPhase.overlayWrite {s : State} (h : InvButPhase s) (rx : Frame) : InvButPhase (overlayWrite rx s) := by
  unfold Machine.overlayWrite
  split
  · exact h.overlay rx.b0
  · exact h

theorem InvButPhase.commits {i : Instr} {s u c : State} (h : InvButPhase u) (hc : Commits i s u c) :
    InvButPhase c := by
  obtain ⟨_, r, st, d, -, -, rfl⟩ | ⟨rx, -, rfl⟩ | rfl := hc.cases
  · exact h.commitRead r st d
  · exact h.overlayWrite rx
  · exact h

/-- CLOSE on an open block gives the transport up and ends the log (44_register_map R186, R187). -/
theorem InvButPhase.release {s : State} (h : InvButPhase s) (ho : s.closed = false) : InvButPhase s.release := by
  refine { h with
    heldUnlessClosed := rfl, framesLegal := ?_, closedIffLogged := by simp, closeIsLast := ?_,
    busyOnlyIfStuck := fun hbusy => (hbusy rfl).elim }
  · intro tx o hmem
    exact h.framesLegal tx o (by simpa using hmem)
  · intro before after he
    obtain rfl | ⟨init, e, rfl⟩ := List.eq_nil_or_concat after
    · rfl
    · have hlog : s.xlog = before ++ .close :: init := 
        (List.append_inj' (t₁ := [.close]) (t₂ := [e]) (by simpa using he) rfl).1
      exact (h.close_not_logged ho (hlog ▸ by simp)).elim

/-! ### Every end of an instruction -/

theorem Ends.inv {i : Instr} {s t : State} (h : Ends i s t) (hs : InvButPhase s) : Inv t := by
  cases h with
  | untouched r => exact hs.idle _
  | committed ho p u c htraffic hc => exact ((htraffic.invButPhase ho hs).commits hc).idle _
  | failed ho e u haborted => exact (haborted.invButPhase ho hs).idle _
  | stuck ho _ htraffic hstuck => exact (htraffic.invButPhase ho hs).of_sticks hstuck

theorem ReadChain.invButPhase {k : Nat} {s t : State} (h : ReadChain k s t) (ho : s.closed = false)
    (hs : InvButPhase s) : InvButPhase t := by
  induction h with
  | nil => exact hs
  | cons r st d _ htraffic _ ih =>
    exact ih (htraffic.closed.trans ho) ((htraffic.invButPhase ho hs).commitRead r st d)

/-- READ_ALL's reads keep the invariant wherever they end (44_register_map R182, R184). -/
theorem ChainRun.inv {n : Nat} {s : State} {run : Run Payload} (h : ChainRun n s run) (ho : s.closed = false)
    (hs : InvButPhase s) : Inv (finish run) := by
  cases run with
  | done p t => exact (h.2.invButPhase ho hs).idle _
  | raised e t =>
    obtain ⟨k, u, -, hchain, haborted, -⟩ := h
    exact (haborted.invButPhase (hchain.chained.closed.trans ho) (hchain.invButPhase ho hs)).idle _
  | stuck t =>
    obtain ⟨k, u, -, hchain, htraffic, hstuck⟩ := h
    exact (htraffic.invButPhase (hchain.chained.closed.trans ho) (hchain.invButPhase ho hs)).of_sticks hstuck

theorem exec_keeps_inv {i : Instr} {s t : State} (hs : Inv s) (h : exec i s = .next t) : Inv t := by
  obtain ⟨-, rfl⟩ | ⟨st, d, -, rfl⟩ | ⟨-, rfl⟩ | hends := exec_cases h
  · cases hc : s.closed
    · exact (hs.butPhase.release hc).idle _
    · exact hs.butPhase.idle _
  · exact { hs with }
  · cases hc : s.closed
    · exact (readAll_chain s hc).inv hc hs.butPhase
    · exact hs.butPhase.idle _
  · exact hends.inv hs.butPhase

/-- Settles O60: a waiting block stays as it is, and the instruction that a step takes keeps the invariant. -/
theorem everyStepKeepsTheInvariant : Obligations.EveryStepKeepsTheInvariant := by
  intro s t hs h
  obtain rfl | ⟨_, rest, i, -, -, -, hexec⟩ := step_cases h
  · exact hs
  · exact exec_keeps_inv (s := { s with pending := rest }) { hs with } hexec

/-! ### Construction -/

theorem inv_ofConfiguration {c : Configuration} (h : c.wf = true) : Inv (State.ofConfiguration c) where
  configWf := h
  cacheLength := List.length_replicate
  cacheDecoded := by simp [State.ofConfiguration, List.getElem?_replicate]
  statusOfRaw := rfl
  heldUnlessClosed := rfl
  framesLegal := by simp [State.ofConfiguration]
  closedIffLogged := by simp [State.ofConfiguration]
  closeIsLast := by simp [State.ofConfiguration]
  busyOnlyIfStuck := fun hbusy => (hbusy rfl).elim

theorem construct_of_wf {c : Configuration} (h : c.wf = true) : construct c = .next (State.ofConfiguration c) :=
  if_pos h

theorem construct_of_not_wf {c : Configuration} (h : c.wf = false) :
    construct c = .refused .illFormedConfiguration := by
  simp [construct, h]

/-- The session of the free variant passes the check, whatever the variant is (entry 11). -/
theorem session_wf : Config.session.wf = true := by
  simp [Configuration.wf, Config.session, Config.variant.tableOk, Config.variant.layoutOk]

/-- Settles O57: construction checks the configuration and then fills every field with its reset value. -/
theorem constructionGivesTheResetState : Obligations.ConstructionGivesTheResetState := by
  refine fun c => ⟨construct_of_not_wf, fun h =>
    ⟨_, construct_of_wf h, rfl, fun r hr => ?_, ?_, rfl, rfl, rfl, rfl, rfl⟩⟩
  · simp [State.ofConfiguration, hr]
  · exact List.length_replicate

/-- Settles O59: only a well-formed configuration is constructed, and its reset state meets the invariant. -/
theorem constructionMeetsTheInvariant : Obligations.ConstructionMeetsTheInvariant := by
  intro c s h
  cases hwf : c.wf with
  | true =>
    obtain rfl : State.ofConfiguration c = s := Host.Outcome.next.inj ((construct_of_wf hwf).symm.trans h)
    exact inv_ofConfiguration hwf
  | false => cases (construct_of_not_wf hwf).symm.trans h

/-- Settles O58: the free variant carries the proof of its checks. -/
theorem resetMeetsTheInvariant : Obligations.ResetMeetsTheInvariant :=
  ⟨construct_of_wf session_wf, inv_ofConfiguration session_wf⟩

end Sys2Proof.Machine
end

section
/-! Proofs about what an instruction and a step leave unchanged (10_state R20, R30 to R36). -/

namespace Sys2Proof.Machine

open Sys2Proof

/-! ### The cache and the status snapshot -/

@[simp] theorem overlayWrite_cache (rx : Frame) (s : State) : (overlayWrite rx s).cache = s.cache := by
  unfold overlayWrite
  split <;> rfl

/-- Without the policy a write overlays nothing (41_register R139). -/
theorem overlayWrite_of_off {s : State} (h : s.config.overlayWriteStatus = false) (rx : Frame) :
    overlayWrite rx s = s := by
  simp [overlayWrite, h]

/-- Of the instructions that end by themselves only REG_READ writes a cache entry, that of its register. -/
theorem Ends.cache {i : Instr} {s t : State} (h : Ends i s t) :
    t.cache = s.cache ∨
      ∃ reg r m, i = .regRead reg ∧ resolve s.config.table reg = some r ∧ t.cache = s.cache.set r (some m) := by
  cases h with
  | untouched r => exact .inl rfl
  | committed _ p u c htraffic hc =>
    rw [giveOk_cache, ← htraffic.cache]
    obtain ⟨reg, r, st, d, hi, hr, rfl⟩ | ⟨rx, -, rfl⟩ | rfl := hc.cases
    · exact .inr ⟨reg, r, _, hi, hr, rfl⟩
    · exact .inl (overlayWrite_cache rx u)
    · exact .inl rfl
  | failed _ e u haborted => exact .inl haborted.cache
  | stuck _ _ htraffic => exact .inl htraffic.cache

/-- Of those only REG_READ, and REG_WRITE under `OVERLAY_WRITE_STATUS`, write the status snapshot. -/
theorem Ends.status {i : Instr} {s t : State} (h : Ends i s t) :
    (t.status = s.status ∧ t.statusRaw = s.statusRaw) ∨ opOf i = .regRead ∨
      (opOf i = .regWrite ∧ s.config.overlayWriteStatus = true) := by
  cases h with
  | untouched r => exact .inl ⟨rfl, rfl⟩
  | committed _ p u c htraffic hc =>
    obtain ⟨reg, r, st, d, rfl, -, -⟩ | ⟨rx, hi, rfl⟩ | rfl := hc.cases
    · exact .inr (.inl rfl)
    · cases hpolicy : s.config.overlayWriteStatus with
      | true => exact .inr (.inr ⟨hi, rfl⟩)
      | false =>
        rw [overlayWrite_of_off (htraffic.config ▸ hpolicy)]
        exact .inl ⟨htraffic.status, htraffic.statusRaw⟩
    · exact .inl ⟨htraffic.status, htraffic.statusRaw⟩
  | failed _ e u haborted => exact .inl ⟨haborted.status, haborted.statusRaw⟩
  | stuck _ _ htraffic => exact .inl ⟨htraffic.status, htraffic.statusRaw⟩

/-- CLOSE, taken or refused, leaves a closed and idle block, adds log entries and a result, and writes nothing else
but the hold of the transport (44_register_map R186, R188). -/
theorem exec_close_frame {s t : State} (h : exec .close s = .next t) :
    ∃ held added rs, t = { s with
      closed := true, transportHeld := held, phase := .idle, xlog := s.xlog ++ added, results := rs } := by
  obtain rfl := Host.Outcome.next.inj (h.symm.trans (exec_close s))
  cases hc : s.closed
  · exact ⟨false, [.close], _, rfl⟩
  · exact ⟨s.transportHeld, [], s.results ++ [.err (.closed .close)], by simp [answered, hc]⟩

/-- Every instruction but READ_ALL writes the cache as `Ends.cache` says. -/
theorem exec_cache {i : Instr} {s t : State} (h : exec i s = .next t) (hi : opOf i ≠ .readAll) :
    t.cache = s.cache ∨
      ∃ reg r m, i = .regRead reg ∧ resolve s.config.table reg = some r ∧ t.cache = s.cache.set r (some m) := by
  obtain ⟨rfl, -⟩ | ⟨st, d, -, rfl⟩ | ⟨rfl, -⟩ | hends := exec_cases h
  · obtain ⟨held, added, rs, rfl⟩ := exec_close_frame h
    exact .inl rfl
  · exact .inl rfl
  · exact (hi rfl).elim
  · exact hends.cache

/-- Writing one register's entry leaves the others. -/
theorem cacheEntry_of_set {s t : State} {r r' : Nat} {m : Option Values} (h : t.cache = s.cache.set r m)
    (hne : r' ≠ r) : cacheEntry t r' = cacheEntry s r' := by
  simp [cacheEntry, h, List.getD, hne.symm]

/-- Settles O24: the commit of REG_READ is the only cache write outside READ_ALL. -/
theorem cacheIsWrittenByReadsOnly : Obligations.CacheIsWrittenByReadsOnly := by
  intro i s t h
  refine ⟨fun hregRead hreadAll => ?_, ?_⟩
  · obtain hkept | ⟨reg, _, _, rfl, -, -⟩ := exec_cache h hreadAll
    · exact hkept
    · exact (hregRead rfl).elim
  · rintro reg r rfl hr r' hne
    obtain hkept | ⟨_, r₁, m, hreg, hr₁, hset⟩ := exec_cache h (by simp [opOf])
    · simp [cacheEntry, hkept]
    · cases hreg
      obtain rfl : r = r₁ := Option.some.inj (hr.symm.trans hr₁)
      exact cacheEntry_of_set hset hne

/-- Settles O25: the commits of REG_READ and, under the policy, of REG_WRITE are the only ones that overlay. -/
theorem statusIsWrittenByReadsOnly : Obligations.StatusIsWrittenByReadsOnly := by
  intro i s t h hregRead hreadAll hregWrite
  obtain ⟨rfl, -⟩ | ⟨st, d, -, rfl⟩ | ⟨rfl, -⟩ | hends := exec_cases h
  · obtain ⟨held, added, rs, rfl⟩ := exec_close_frame h
    exact ⟨rfl, rfl⟩
  · exact ⟨rfl, rfl⟩
  · exact (hreadAll rfl).elim
  · obtain hkept | hi | ⟨hi, hpolicy⟩ := hends.status
    · exact hkept
    · exact (hregRead hi).elim
    · exact (Bool.false_ne_true ((hregWrite hi).symm.trans hpolicy)).elim

/-! ### The rest of the state -/

/-- No change is a chain without a frame. -/
theorem Chained.refl (s : State) : Chained 0 s s := (Traffic.refl s).chained

/-- Where a chain logs no exchange, the buffers and the surroundings are as they were (43_transaction R160). -/
theorem Chained.quiet_of_no_exchange {n : Nat} {s t : State} (h : Chained n s t) :
    ∃ added, t.xlog = s.xlog ++ added ∧ (exchangeCount added = 0 →
      t.txBuf = s.txBuf ∧ t.rxBuf = s.rxBuf ∧ t.environment = s.environment ∧
        t.remotePipeline = s.remotePipeline ∧ t.drawn = s.drawn) := by
  obtain ⟨added, hlog, -, hadded⟩ := h.log
  refine ⟨added, hlog, fun hcount => h.quiet ?_⟩
  cases added with
  | nil => simpa using hlog
  | cons e l =>
    obtain ⟨tx, o, rfl, -⟩ := hadded e (.head _)
    simp [exchangeCount] at hcount

/-- Every instruction but CLOSE and RESPONSE is a chain of exchanges and commits, and then sets `Phase` and the
results. -/
theorem exec_chained {i : Instr} {s t : State} (h : exec i s = .next t) (hclose : opOf i ≠ .close)
    (hresponse : opOf i ≠ .response) :
    ∃ n u p rs, Chained n s u ∧ t = { u with phase := p, results := rs } := by
  obtain ⟨t', ht', hend⟩ := exec_general i s hclose hresponse
  obtain rfl : t = t' := Host.Outcome.next.inj (h.symm.trans ht')
  obtain ⟨r, -, rfl⟩ | ⟨-, n, p, c, -, hc, rfl⟩ | ⟨-, n, e, u, -, hu, -, rfl⟩ |
    ⟨-, n, u, -, hu, -, rfl⟩ := hend
  · exact ⟨0, s, _, _, Chained.refl s, rfl⟩
  · exact ⟨n, c, _, _, hc, rfl⟩
  · exact ⟨n, u, _, _, hu, rfl⟩
  · exact ⟨n, t, _, _, hu, rfl⟩

/-- Settles O26: by the three kinds of instruction, CLOSE, an inbound frame and a chain of exchanges. -/
theorem frameOfEveryInstruction : Obligations.FrameOfEveryInstruction := by
  intro i s t h
  by_cases hclose : opOf i = .close
  · obtain rfl := eq_close_of_opOf hclose
    obtain ⟨held, added, rs, rfl⟩ := exec_close_frame h
    exact ⟨rfl, rfl, fun hne => (hne rfl).elim,
      ⟨added, rfl, fun _ => ⟨rfl, rfl, rfl, rfl, fun _ => rfl⟩⟩, nofun⟩
  by_cases hresponse : opOf i = .response
  · obtain ⟨st, d, rfl⟩ := eq_response_of_opOf hresponse
    obtain rfl : s.setRx (responseFrame st (toBytes d)) = t := Host.Outcome.next.inj h
    exact ⟨rfl, rfl, fun _ => ⟨rfl, rfl⟩,
      ⟨[], (List.append_nil _).symm, fun _ => ⟨rfl, rfl, rfl, rfl, fun hne => (hne rfl).elim⟩⟩,
      fun _ => ⟨_, rfl⟩⟩
  · obtain ⟨n, u, p, rs, hu, rfl⟩ := exec_chained h hclose hresponse
    obtain ⟨added, hlog, hquiet⟩ := hu.quiet_of_no_exchange
    refine ⟨hu.config, hu.pending, fun _ => ⟨hu.closed, hu.transportHeld⟩, ⟨added, hlog, fun hcount => ?_⟩,
      fun hi => (hresponse hi).elim⟩
    obtain ⟨htx, hrx, henv, hpipe, hdrawn⟩ := hquiet hcount
    exact ⟨htx, henv, hpipe, hdrawn, fun _ => hrx⟩

/-- Settles O19: a step that takes no CLOSE leaves `Closed`, and CLOSE never clears it. -/
theorem onlyCloseCloses : Obligations.OnlyCloseCloses := by
  intro s t h
  obtain rfl | ⟨r, rest, i, hidle, hpending, hdecode, hexec⟩ := step_cases h
  · exact ⟨rfl, id, fun hopen hclosed => (Bool.false_ne_true (hopen.symm.trans hclosed)).elim⟩
  by_cases hclose : opOf i = .close
  · obtain rfl := eq_close_of_opOf hclose
    obtain ⟨held, added, rs, rfl⟩ := exec_close_frame hexec
    exact ⟨rfl, fun _ => rfl, fun _ _ => ⟨r, rest, hidle, hpending, hdecode⟩⟩
  · obtain ⟨hconfig, -, hkept, -⟩ := frameOfEveryInstruction i _ t hexec
    have hclosed : t.closed = s.closed := (hkept hclose).1
    exact ⟨hconfig, hclosed.trans, fun hopen hnow =>
      (Bool.false_ne_true ((hclosed.trans hopen).symm.trans hnow)).elim⟩

end Sys2Proof.Machine
end

section
/-! Proofs about the log: no instruction reads it and each only adds to it (10_state R38). -/

namespace Sys2Proof.Machine

open Sys2Proof

/-! ### Sequences that do not read the log -/

/-- It is enough that the sequence agrees, whatever the log, with one that does not read it; which one may depend on
the rest of the state. -/
theorem logFree_of_agrees {α : Type} {f : State → Run α}
    (h : ∀ s : State, ∃ g : State → Run α, LogFree g ∧ ∀ x, f { s with xlog := x } = g { s with xlog := x }) :
    LogFree f := by
  intro s
  obtain ⟨g, hg, hfg⟩ := h s
  obtain ⟨added, hadded, hx⟩ := hg s
  have hs : f s = g s := hfg s.xlog
  exact ⟨added, hs ▸ hadded, fun x => by rw [hfg, hs, hx]⟩

/-- A value that leaves the state as it is. -/
theorem logFree_value {α : Type} (v : α) : LogFree fun s => .done v s :=
  logfree_done v id (fun _ _ => rfl) fun _ => rfl

/-- ENCODE reads the overlap policy only. -/
theorem logFree_encodeRun (vs : Values) (fs : List FieldSpec) : LogFree (encodeRun vs fs) := by
  refine logFree_of_agrees fun s => ?_
  cases he : encodeFields none s.config.encodeOverlap vs fs 0 with
  | ok w => exact ⟨_, logFree_value (.word w), fun x => by simp only [encodeRun, he]⟩
  | error e => exact ⟨_, logfree_raised e, fun x => by simp only [encodeRun, he]⟩

theorem logFree_readRegisterRun (a : Addr) : LogFree (readRegisterRun a) :=
  logfree_whileOpen _ _ (.andThen (logfree_readSeq _ a) fun _ => logFree_value _)

theorem logFree_writeRegisterRun (a : Addr) (d : DataBytes) : LogFree (writeRegisterRun a d) :=
  logfree_whileOpen _ _ (.andThen (logfree_writeSeq _ a d) fun _ => logFree_value _)

theorem logFree_bareExchange (op : Op) (p : Phase) (tx : Frame) : LogFree (bareExchange op p tx) :=
  logfree_whileOpen _ _ (.andThen (logfree_precisely (logfree_phase p _ (logfree_exchange op 1 tx))) fun _ =>
    logFree_value _)

/-- The overlay of a write reads the policy only (41_register R139). -/
theorem logFree_overlayWrite (rx : Frame) : LogFree fun s => .done Payload.none (overlayWrite rx s) := by
  refine logfree_done Payload.none (overlayWrite rx) (fun s x => ?_) fun s => ?_
  · unfold overlayWrite
    split <;> rfl
  · unfold overlayWrite
    split <;> rfl

theorem mergedWrite_of_error {r : Nat} {vs : Values} {s : State} {e : Error}
    (h : encodeFields (some r) s.config.encodeOverlap (mergeValues vs (mergeBase s r)) (registerFields s r) 0 =
      .error e) : mergedWrite r vs s = .raised e s := by
  simp only [mergedWrite, h]

theorem mergedWrite_of_ok {r : Nat} {vs : Values} {s : State} {w : Word}
    (h : encodeFields (some r) s.config.encodeOverlap (mergeValues vs (mergeBase s r)) (registerFields s r) 0 =
      .ok w) :
    mergedWrite r vs s = andThen (writeSeq .regWrite (registerAddr s r) (toBytes w) s) fun rx s1 =>
      .done .none (overlayWrite rx s1) := by
  simp only [mergedWrite, h]

/-- The merged word is encoded from the table, the cache and the policy. -/
theorem logFree_mergedWrite (r : Nat) (vs : Values) : LogFree (mergedWrite r vs) := by
  refine logFree_of_agrees fun s => ?_
  cases he : encodeFields (some r) s.config.encodeOverlap (mergeValues vs (mergeBase s r)) (registerFields s r) 0 with
  | error e => exact ⟨_, logfree_raised e, fun x => mergedWrite_of_error he⟩
  | ok w =>
    exact ⟨_, .andThen (logfree_writeSeq .regWrite (registerAddr s r) (toBytes w)) logFree_overlayWrite,
      fun x => mergedWrite_of_ok he⟩

/-- REG_WRITE's checks read the table only (41_register R134). -/
theorem logFree_regWriteRun (reg : RegRef) (vs : Values) : LogFree (regWriteRun reg vs) := by
  refine logfree_whileOpen _ _ (logfree_withRegister _ _ fun r => logFree_of_agrees fun s => ?_)
  by_cases hunknown : unknownKeys (registerFields s r) vs ≠ []
  · exact ⟨_, logfree_raised (.notFoundFields r (unknownKeys (registerFields s r) vs)), fun x => if_pos hunknown⟩
  by_cases hreadOnly : readOnlyKeys (registerFields s r) vs ≠ []
  · exact ⟨_, logfree_raised (.access r (readOnlyKeys (registerFields s r) vs)),
      fun x => (if_neg hunknown).trans (if_pos hreadOnly)⟩
  · exact ⟨_, logFree_mergedWrite r vs, fun x => (if_neg hunknown).trans (if_neg hreadOnly)⟩

theorem cachedValue_of_unread {r : Nat} {name : String} {s : State} (h : cacheEntry s r = none) :
    cachedValue r name s = .raised (.notFoundUnread r) s := by
  simp only [cachedValue, h]

theorem cachedValue_of_missing {r : Nat} {name : String} {s : State} {m : Values} (h : cacheEntry s r = some m)
    (hm : m.lookup name = none) : cachedValue r name s = .raised (.notFoundUnread r) s := by
  simp only [cachedValue, h, hm]

theorem cachedValue_of_found {r : Nat} {name : String} {s : State} {m : Values} {v : Value}
    (h : cacheEntry s r = some m) (hm : m.lookup name = some v) :
    cachedValue r name s = .done (.value v) s := by
  simp only [cachedValue, h, hm]

/-- REG_GET reads the cache only (41_register R140). -/
theorem logFree_cachedValue (r : Nat) (name : String) : LogFree (cachedValue r name) := by
  refine logFree_of_agrees fun s => ?_
  cases hentry : cacheEntry s r with
  | none => exact ⟨_, logfree_raised _, fun x => cachedValue_of_unread hentry⟩
  | some m =>
    cases hvalue : m.lookup name with
    | none => exact ⟨_, logfree_raised _, fun x => cachedValue_of_missing hentry hvalue⟩
    | some v => exact ⟨_, logFree_value (Payload.value v), fun x => cachedValue_of_found hentry hvalue⟩

theorem logFree_regGetRun (reg : RegRef) (name : String) : LogFree (regGetRun reg name) := by
  refine logfree_whileOpen _ _ (logfree_withRegister _ _ fun r => logFree_of_agrees fun s => ?_)
  by_cases hname : name ∉ fieldNames (registerFields s r)
  · exact ⟨_, logfree_raised (.notFoundFields r [name]), fun x => if_pos hname⟩
  · exact ⟨_, logFree_cachedValue r name, fun x => if_neg hname⟩

theorem logFree_lookupRun (name : String) : LogFree (lookupRun name) :=
  logfree_whileOpen _ _ (logfree_withRegister _ _ fun r => logFree_value (Payload.register r))

/-- READ_ALL reads the length of the table (44_register_map R182). -/
theorem logFree_readAllRun : LogFree readAllRun :=
  logfree_whileOpen _ _ (logFree_of_agrees fun s =>
    ⟨_, logfree_readEach (List.range s.config.table.length), fun _ => rfl⟩)

/-- CLOSE adds its own entry to any log (44_register_map R186). -/
theorem logFree_release : LogFree fun s => .done Payload.none s.release :=
  fun _ => ⟨[.close], rfl, fun _ => rfl⟩

/-! ### Every instruction -/

/-- The end of a command adds nothing to the log and does not read it. -/
theorem finish_setRunLog (x : List LogEntry) (r : Run Payload) :
    finish (setRunLog x r) = { finish r with xlog := x } := by
  cases r <;> rfl

theorem finish_xlog (r : Run Payload) : (finish r).xlog = (runState r).xlog := by
  cases r <;> rfl

/-- What it is for the instruction `i` not to read the log: from any other log it does the same and adds the same. -/
def ExecLogFree (i : Instr) : Prop :=
  ∀ s, ∃ (t : State) (added : List LogEntry), exec i s = .next t ∧ t.xlog = s.xlog ++ added ∧
    ∀ x, exec i { s with xlog := x } = .next { t with xlog := x ++ added }

/-- An instruction that runs a sequence that does not read the log. -/
theorem execLogFree_of_run {i : Instr} {f : State → Run Payload} (he : ∀ s, exec i s = .next (finish (f s)))
    (hf : LogFree f) : ExecLogFree i := by
  intro s
  obtain ⟨added, hadded, hx⟩ := hf s
  exact ⟨finish (f s), added, he s, (finish_xlog _).trans hadded, fun x => by rw [he, hx, finish_setRunLog]⟩

/-- An inbound frame adds nothing to the log. -/
theorem execLogFree_response (st : Byte) (d : Word) : ExecLogFree (.response st d) :=
  fun _ => ⟨_, [], rfl, (List.append_nil _).symm, fun x => by rw [List.append_nil]; rfl⟩

/-- Settles O21: each instruction runs a sequence that does not read the log. -/
theorem theLogIsOnlyWritten : Obligations.TheLogIsOnlyWritten := by
  intro i
  change ExecLogFree i
  cases i with
  | decode w fs => exact execLogFree_of_run (fun _ => rfl) (logFree_value _)
  | encode vs fs => exact execLogFree_of_run (fun _ => rfl) (logFree_encodeRun vs fs)
  | readRegister a => exact execLogFree_of_run (fun _ => rfl) (logFree_readRegisterRun a)
  | writeRegister a d => exact execLogFree_of_run (fun _ => rfl) (logFree_writeRegisterRun a d)
  | regRead reg => exact execLogFree_of_run (fun _ => rfl) (logfree_regRead reg)
  | regWrite reg vs => exact execLogFree_of_run (fun _ => rfl) (logFree_regWriteRun reg vs)
  | regGet reg name => exact execLogFree_of_run (fun _ => rfl) (logFree_regGetRun reg name)
  | statusUpdate b =>
    exact execLogFree_of_run (fun _ => rfl) (logFree_of_agrees fun s =>
      ⟨_, logFree_value (.flags (statusFlags s.config.statusLayout b)), fun _ => rfl⟩)
  | readAll => exact execLogFree_of_run (fun _ => rfl) logFree_readAllRun
  | getStatus =>
    exact execLogFree_of_run (fun _ => rfl) (logfree_whileOpen _ _ (logFree_of_agrees fun s =>
      ⟨_, logFree_value (statusSnapshot s), fun _ => rfl⟩))
  | lookup name => exact execLogFree_of_run (fun _ => rfl) (logFree_lookupRun name)
  | close => exact execLogFree_of_run (fun _ => rfl) (logfree_whileOpen _ _ logFree_release)
  | readReq a => exact execLogFree_of_run (fun _ => rfl) (logFree_bareExchange _ _ _)
  | writeReq a d => exact execLogFree_of_run (fun _ => rfl) (logFree_bareExchange _ _ _)
  | response st d => exact execLogFree_response st d

end Sys2Proof.Machine
end

section
/-! Proofs about the order of commands (20_memory R61, R62) and about reads and writes of the remote words under the
reference responder (20_memory R64). -/

namespace Sys2Proof.Machine

open Sys2Proof

/-! ### What a step takes from the queue -/

/-- A block that is not IDLE takes nothing (20_memory R62). -/
theorem fetch_of_busy {s : State} (h : s.phase ≠ .idle) : fetch s = .waits := by
  cases hphase : s.phase with
  | idle => exact (h hphase).elim
  | rdEx1 _ | rdEx2 _ | wrEx _ => simp only [fetch, hphase]

/-- An IDLE block without a request takes nothing (60_exceptions R217). -/
theorem fetch_of_no_request {s : State} (hidle : s.phase = .idle) (h : s.pending = []) : fetch s = .waits := by
  simp only [fetch, hidle, h]

/-- An IDLE block takes the decoded head of the queue (20_memory R61). -/
theorem fetch_of_decodes {s : State} {r : Request} {rest : List Request} {i : Instr} (hidle : s.phase = .idle)
    (h : s.pending = r :: rest) (hdecode : decode r = .ok i) : fetch s = .takes i { s with pending := rest } := by
  simp only [fetch, hidle, h, hdecode]

/-- A block that takes nothing stays as it is. -/
theorem step_of_waits {s : State} (h : fetch s = .waits) : step s = .next s := by
  simp only [step, h]

/-- Settles O18: in both cases nothing is fetched. -/
theorem busyOrUnaskedBlockWaits : Obligations.BusyOrUnaskedBlockWaits := fun _ =>
  ⟨fun hbusy => step_of_waits (fetch_of_busy hbusy), fun hidle h => step_of_waits (fetch_of_no_request hidle h)⟩

/-- Settles O17: the fetch takes the head, and the step runs what was fetched. -/
theorem stepRunsTheDecodedInstruction : Obligations.StepRunsTheDecodedInstruction := by
  intro s r rest i hidle hpending hdecode
  simp only [step, fetch_of_decodes hidle hpending hdecode]

/-! ### The fields of the request frames -/

/-- Bit 7 of a 7-bit address in a byte is clear (20_memory R59). -/
@[simp] theorem isWrite_readFrame (a : Addr) : (readFrame a).isWrite = false := by
  simp [Frame.isWrite, readFrame]

@[simp] theorem addr_readFrame (a : Addr) : (readFrame a).addr = a := by
  simp [Frame.addr, readFrame]

/-- The flush frame spells a read of address 0 (30_encoding R84). -/
theorem zero_eq_readFrame : Frame.zero = readFrame 0 := rfl

/-- The write bit is set whatever the address (30_encoding R82). -/
@[simp] theorem isWrite_writeFrame (a : Addr) (d : DataBytes) : (writeFrame a d).isWrite = true := by
  simp [Frame.isWrite, writeFrame]

/-- The write bit is no part of the address (20_memory R59). -/
@[simp] theorem addr_writeFrame (a : Addr) (d : DataBytes) : (writeFrame a d).addr = a := by
  simp [Frame.addr, writeFrame, BitVec.setWidth_or]

@[simp] theorem data_writeFrame (a : Addr) (d : DataBytes) : (writeFrame a d).data = d := rfl

@[simp] theorem b0_responseFrame (st : Byte) (d : DataBytes) : (responseFrame st d).b0 = st := rfl

@[simp] theorem data_responseFrame (st : Byte) (d : DataBytes) : (responseFrame st d).data = d := rfl

/-- The four bytes of a word put together from four bytes are these (40_codec R112, R113). -/
@[simp] theorem toBytes_fromBytes (d : DataBytes) : toBytes (fromBytes d) = d := by
  have hd0 : (fromBytes d).extractLsb' 24 8 = d.d0 :=
    (BitVec.extractLsb'_append_eq_of_le (by decide)).trans
      ((BitVec.extractLsb'_append_eq_of_le (by decide)).trans BitVec.extractLsb'_append_eq_left)
  have hd1 : (fromBytes d).extractLsb' 16 8 = d.d1 :=
    (BitVec.extractLsb'_append_eq_of_le (by decide)).trans
      ((BitVec.extractLsb'_append_eq_of_le (by decide)).trans BitVec.extractLsb'_append_eq_right)
  have hd2 : (fromBytes d).extractLsb' 8 8 = d.d2 :=
    (BitVec.extractLsb'_append_eq_of_le (by decide)).trans BitVec.extractLsb'_append_eq_right
  have hd3 : (fromBytes d).extractLsb' 0 8 = d.d3 := BitVec.extractLsb'_append_eq_right
  simp only [toBytes, hd0, hd1, hd2, hd3]

/-! ### The reference responder (20_memory R64) -/

/-- After a read request the responder answers with the remote word of its address. -/
@[simp] theorem responderData_readFrame (regs : Vector Word 128) (a : Addr) (n : Nat) :
    responderData regs (some (readFrame a)) n = toBytes (regs[a.toNat]'a.isLt) := by
  simp [responderData]

/-- A read request changes no remote word. -/
@[simp] theorem responderRegs_readFrame (regs : Vector Word 128) (a : Addr) :
    responderRegs regs (readFrame a) = regs := by
  simp [responderRegs]

/-- A write request stores its data word at its address. -/
@[simp] theorem responderRegs_writeFrame (regs : Vector Word 128) (a : Addr) (d : DataBytes) :
    responderRegs regs (writeFrame a d) = regs.set a.toNat (fromBytes d) a.isLt := by
  simp [responderRegs]

/-- A word stored at `a` is read back at `a`, and nowhere else. -/
theorem toBytes_remoteWord_set (regs : Vector Word 128) (a b : Addr) (d : DataBytes) :
    toBytes ((regs.set a.toNat (fromBytes d) a.isLt)[b.toNat]'b.isLt) =
      if b = a then d else toBytes (regs[b.toNat]'b.isLt) := by
  by_cases h : b = a
  · subst h
    simp
  · have hne : a.toNat ≠ b.toNat := fun he => h (BitVec.eq_of_toNat_eq he.symm)
    simp [h, hne]

/-- The responder answers every exchange, with what the pending request asks for and a free status byte. -/
theorem exchangeOrRaise_reference (op : Op) (k : Nat) (tx : Frame) {s : State} {regs : Vector Word 128}
    (he : s.environment = .reference regs) :
    ∃ st t, exchangeOrRaise op k tx s = .done (responseFrame st (responderData regs s.remotePipeline s.drawn)) t ∧
      t.environment = .reference (responderRegs regs tx) ∧ t.remotePipeline = some tx := by
  have hanswer : answer tx s = (.response (responseFrame (Config.freeStatus s.drawn)
      (responderData regs s.remotePipeline s.drawn)), .reference (responderRegs regs tx)) := by simp only [answer, he]
  exact ⟨Config.freeStatus s.drawn, (exchange tx s).2, by simp [exchangeOrRaise, exchange, hanswer],
    by simp [hanswer], by simp [exchange, hanswer, pipelineAfter]⟩

/-- `ReadSeq` gives the remote word of its address: the flush exchange answers the read request before it
(43_transaction R162, R163). -/
theorem readSeq_reference (op : Op) (a : Addr) {s : State} {regs : Vector Word 128}
    (he : s.environment = .reference regs) :
    ∃ st t, readSeq op a s = .done (st, toBytes (regs[a.toNat]'a.isLt)) t ∧ t.environment = .reference regs := by
  obtain ⟨_, s1, h1, he1, hpipeline⟩ :=
    exchangeOrRaise_reference op 1 (readFrame a) (s := s.setPhase (.rdEx1 a)) he
  obtain ⟨st, s2, h2, he2, -⟩ := exchangeOrRaise_reference op 2 .zero (s := s1.setPhase (.rdEx2 a)) he1
  refine ⟨st, s2.setPhase .idle, ?_, ?_⟩
  · simp [readSeq, h1, h2, hpipeline, andThen, precisely]
  · simpa [zero_eq_readFrame] using he2

/-- `WriteSeq` stores its data word at its address (43_transaction R164). -/
theorem writeSeq_reference (op : Op) (a : Addr) (d : DataBytes) {s : State} {regs : Vector Word 128}
    (he : s.environment = .reference regs) :
    ∃ rx t, writeSeq op a d s = .done rx t ∧
      t.environment = .reference (regs.set a.toNat (fromBytes d) a.isLt) := by
  obtain ⟨st, s1, h1, he1, -⟩ := exchangeOrRaise_reference op 1 (writeFrame a d) (s := s.setPhase (.wrEx a)) he
  refine ⟨responseFrame st (responderData regs s.remotePipeline s.drawn), s1.setPhase .idle, ?_, by simpa using he1⟩
  simp [writeSeq, h1, andThen, precisely]

/-- A sequence that gives a value leaves what traffic leaves. -/
theorem EngineRun.traffic_of_done {α : Type} {n : Nat} {s t : State} {r : Run α} {v : α} (h : EngineRun n s r)
    (hr : r = .done v t) : Traffic n s t := by
  subst hr
  exact h

/-- Settles O37: READ_REGISTER answers what `ReadSeq` gives, and the exchanges give no result of their own. -/
theorem referenceReadReturnsTheRemoteWord : Obligations.ReferenceReadReturnsTheRemoteWord := by
  intro s a regs hopen he
  obtain ⟨st, u, hread, hregs⟩ := readSeq_reference .readRegister a he
  have htraffic : Traffic 2 s u := (engine_readSeq .readRegister a s).traffic_of_done hread
  refine ⟨giveOk (.readData st (toBytes (regs[a.toNat]'a.isLt))) u, st, ?_, ?_, hregs, rfl⟩
  · simp [exec, execReadRegister, readRegisterRun, whileOpen, hopen, hread, andThen, finish]
  · rw [giveOk_results, htraffic.results]

/-- WRITE_REGISTER of an open block stores its word and answers OK without data (43_transaction R164, R165). -/
theorem exec_writeRegister_reference (a : Addr) (d : DataBytes) {s : State} {regs : Vector Word 128}
    (hopen : s.closed = false) (he : s.environment = .reference regs) :
    ∃ t, exec (.writeRegister a d) s = .next t ∧ t.results = s.results ++ [.ok .none] ∧ t.closed = false ∧
      t.environment = .reference (regs.set a.toNat (fromBytes d) a.isLt) := by
  obtain ⟨rx, u, hwrite, hregs⟩ := writeSeq_reference .writeRegister a d he
  have htraffic : Traffic 1 s u := (engine_writeSeq .writeRegister a d s).traffic_of_done hwrite
  refine ⟨giveOk .none u, ?_, ?_, htraffic.closed.trans hopen, hregs⟩
  · simp [exec, execWriteRegister, writeRegisterRun, whileOpen, hopen, hwrite, andThen, finish]
  · rw [giveOk_results, htraffic.results]

/-- Settles O38: the read returns the remote word that the write left at its address. -/
theorem referenceReadAfterWrite : Obligations.ReferenceReadAfterWrite := by
  intro s a b d regs hopen he
  obtain ⟨t, hwrite, hresults, hstillOpen, hregs⟩ := exec_writeRegister_reference a d hopen he
  obtain ⟨u, st, hread, hresult, -⟩ := referenceReadReturnsTheRemoteWord t b _ hstillOpen hregs
  refine ⟨t, u, st, hwrite, hread, ?_⟩
  rw [hresult, hresults, toBytes_remoteWord_set, List.append_assoc, List.singleton_append]

end Sys2Proof.Machine
end

section
/-! Proofs about the two encodings of the block: the bits of the wire frames, decoding against spelling, the requests
that spell nothing (30_encoding R80 to R90), and the frames as instructions (entries 2 and 3). -/

namespace Sys2Proof.Machine

open Sys2Proof

/-! ### The bits of a frame (00_scope R9, 30_encoding R80) -/

/-- The word put together from its own four bytes is the word (40_codec R112, R113). -/
@[simp] theorem fromBytes_toBytes (w : Word) : fromBytes (toBytes w) = w := by
  have hhigh : w.extractLsb' 24 8 ++ w.extractLsb' 16 8 = w.extractLsb' 16 16 :=
    BitVec.extractLsb'_append_extractLsb'_eq_extractLsb' rfl
  have hmid : w.extractLsb' 16 16 ++ w.extractLsb' 8 8 = w.extractLsb' 8 24 :=
    BitVec.extractLsb'_append_extractLsb'_eq_extractLsb' rfl
  have hall : w.extractLsb' 8 24 ++ w.extractLsb' 0 8 = w :=
    BitVec.extractLsb'_append_extractLsb'
  simp only [fromBytes, toBytes, hhigh, hmid, hall]

/-- A read request carries no data (30_encoding R81). -/
@[simp] theorem fromBytes_data_readFrame (a : Addr) : fromBytes (readFrame a).data = 0 := by
  change fromBytes ⟨0, 0, 0, 0⟩ = 0
  decide

/-- Byte 0 is the write bit and then the address. -/
theorem b0_eq_isWrite_append_addr (f : Frame) : f.b0 = BitVec.ofBool f.isWrite ++ f.addr := by
  refine BitVec.eq_of_getLsbD_eq fun i hi => ?_
  rw [BitVec.getLsbD_append]
  by_cases hlow : i < 7
  · simp [hlow, Frame.addr]
  · obtain rfl : i = 7 := by omega
    simp [Frame.isWrite]

/-- A frame is known from its three fields `W`, `A` and `D`. -/
theorem frame_eq_of_fields {f g : Frame} (hwrite : f.isWrite = g.isWrite) (haddr : f.addr = g.addr)
    (hdata : f.data = g.data) : f = g := by
  have hb0 : f.b0 = g.b0 := by rw [b0_eq_isWrite_append_addr f, b0_eq_isWrite_append_addr g, hwrite, haddr]
  cases f
  cases g
  rw [Frame.data, Frame.data, DataBytes.mk.injEq] at hdata
  rw [Frame.mk.injEq]
  exact ⟨hb0, hdata⟩

/-- The 40 bits of a frame are its fields, `W` first. -/
theorem bits_eq_fields (f : Frame) :
    f.bits = (BitVec.ofBool f.isWrite ++ f.addr ++ fromBytes f.data : BitVec (1 + 7 + 32)) := by
  rw [← b0_eq_isWrite_append_addr]
  refine BitVec.eq_of_toNat_eq ?_
  simp only [Frame.bits, fromBytes, Frame.data, BitVec.toNat_append, Nat.shiftLeft_or_distrib, ← Nat.shiftLeft_add,
    Nat.or_assoc]

/-- Settles O12: the three fields of each request frame, put together. -/
theorem requestFramesHaveTheirBits : Obligations.RequestFramesHaveTheirBits := by
  refine ⟨fun a => ?_, fun a d => ?_, rfl⟩
  · rw [bits_eq_fields, isWrite_readFrame, addr_readFrame, fromBytes_data_readFrame]
    rfl
  · rw [bits_eq_fields, isWrite_writeFrame, addr_writeFrame, data_writeFrame]
    rfl

/-! ### Decoding and spelling -/

/-- A command byte with the operands of its opcode, well formed, spells its instruction (30_encoding R87, R88). -/
theorem decode_command_of_assembles {c : Byte} {o : Operands} {i : Instr} (hopcode : decodeOpcode c = .ok (opOf i))
    (ho : assemble (opOf i) o = .ok i) (hwf : i.wf = true) : decode (.command c o) = .ok i := by
  simp only [decode, decodeCommand, hopcode, ho, hwf, if_true]

/-- An outbound frame with the write bit is a WRITE_REQ (30_encoding R82). -/
theorem decodeOutbound_of_isWrite {f : Frame} (h : f.isWrite = true) :
    decodeOutbound f = .ok (.writeReq f.addr (fromBytes f.data)) :=
  if_pos h

/-- Without the write bit and without data it is a READ_REQ (30_encoding R81). -/
theorem decodeOutbound_of_no_data {f : Frame} (h : f.isWrite = false) (hdata : fromBytes f.data = 0) :
    decodeOutbound f = .ok (.readReq f.addr) := by
  simp [decodeOutbound, h, hdata]

/-- Without the write bit but with data it is reserved (30_encoding R85). -/
theorem decodeOutbound_of_data {f : Frame} (h : f.isWrite = false) (hdata : fromBytes f.data ≠ 0) :
    decodeOutbound f = .error .reservedFrame := by
  simp only [decodeOutbound, h, Bool.false_eq_true, if_false, if_neg hdata]

@[simp] theorem decodeOutbound_readFrame (a : Addr) : decodeOutbound (readFrame a) = .ok (.readReq a) := by
  rw [decodeOutbound_of_no_data (isWrite_readFrame a) (fromBytes_data_readFrame a), addr_readFrame]

@[simp] theorem decodeOutbound_writeFrame (a : Addr) (d : DataBytes) :
    decodeOutbound (writeFrame a d) = .ok (.writeReq a (fromBytes d)) := by
  rw [decodeOutbound_of_isWrite (isWrite_writeFrame a d), addr_writeFrame, data_writeFrame]

@[simp] theorem decodeInbound_responseFrame (st : Byte) (d : DataBytes) :
    decodeInbound (responseFrame st d) = .response st (fromBytes d) := rfl

/-- Settles O13: a command byte carries its opcode, and the fields of a frame are read back. -/
theorem decodeOfEncodedInstruction : Obligations.DecodeOfEncodedInstruction := by
  intro i hwf
  cases i with
  | decode | encode | readRegister | writeRegister | regRead | regWrite | regGet | statusUpdate | readAll | getStatus
  | lookup | close => exact decode_command_of_assembles rfl rfl hwf
  | readReq a => exact decodeOutbound_readFrame a
  | writeReq a d => simp [encode, decode]
  | response st d => simp [encode, decode]

/-- A frame with the write bit is the write request of its address and data. -/
theorem writeFrame_of_isWrite {f : Frame} (h : f.isWrite = true) : writeFrame f.addr f.data = f :=
  frame_eq_of_fields (by simp [h]) (by simp) (by simp)

/-- A frame without the write bit and without data is the read request of its address. -/
theorem readFrame_of_no_data {f : Frame} (h : f.isWrite = false) (hdata : fromBytes f.data = 0) :
    readFrame f.addr = f := by
  refine frame_eq_of_fields (by simp [h]) (by simp) ?_
  rw [← toBytes_fromBytes f.data, hdata]
  rfl

/-- The status byte and the data of an inbound frame are all of it (30_encoding R83). -/
@[simp] theorem responseFrame_b0_data (f : Frame) : responseFrame f.b0 f.data = f := rfl

/-- Settles O14: by the three readings of an outbound frame; an inbound one has only one. -/
theorem frameOfDecodedRequest : Obligations.FrameOfDecodedRequest := by
  refine ⟨fun f i h => ?_, fun f => ⟨f.b0, fromBytes f.data, rfl, by simp [encode]⟩⟩
  change decodeOutbound f = .ok i at h
  cases hwrite : f.isWrite with
  | true =>
    obtain rfl := Except.ok.inj ((decodeOutbound_of_isWrite hwrite).symm.trans h)
    simp [encode, writeFrame_of_isWrite hwrite]
  | false =>
    by_cases hdata : fromBytes f.data = 0
    · obtain rfl := Except.ok.inj ((decodeOutbound_of_no_data hwrite hdata).symm.trans h)
      exact congrArg Request.outbound (readFrame_of_no_data hwrite hdata)
    · cases (decodeOutbound_of_data hwrite hdata).symm.trans h

/-- Settles O15: the three requests are what their instructions are spelled with. -/
theorem someCommandBytesDecode : Obligations.SomeCommandBytesDecode :=
  ⟨decodeOfEncodedInstruction (.decode 9 [⟨"shaft", 4, 1, .boolean, .rw⟩]) (by decide),
    decodeOfEncodedInstruction (.regGet (.name "CFG") "shaft") rfl, decodeOfEncodedInstruction .close rfl⟩

/-! ### Requests that spell nothing (30_encoding R90) -/

/-- A byte that is no opcode of 30_encoding R88: its upper bits are not zero or its lower four are reserved. -/
theorem decodeOpcode_error {c : Byte} (h : c.toNat = 0 ∨ 13 ≤ c.toNat) : ∃ why, decodeOpcode c = .error why := by
  by_cases hupper : c.extractLsb' 4 4 = 0
  · have hsmall : c.toNat < 16 := by
      have hzero : c.toNat / 16 % 16 = 0 := by
        simpa [Nat.shiftRight_eq_div_pow] using congrArg BitVec.toNat hupper
      have hbyte : c.toNat < 256 := c.isLt
      omega
    have hlower : (c.extractLsb' 0 4).toNat = c.toNat := by simp [Nat.mod_eq_of_lt hsmall]
    have hreserved : c.toNat = 0 ∨ c.toNat = 13 ∨ c.toNat = 14 ∨ c.toNat = 15 := by omega
    refine ⟨.reservedOpcode, ?_⟩
    rcases hreserved with hc | hc | hc | hc <;> simp only [decodeOpcode, hupper, hlower, hc, ne_eq, not_true, if_false]
  · exact ⟨.nonzeroUpperBits, if_pos hupper⟩

/-- An IDLE block refuses a request that spells nothing (60_exceptions R212). -/
theorem step_of_rejects {s : State} {r : Request} {rest : List Request} {why : DecodeError} (hidle : s.phase = .idle)
    (hpending : s.pending = r :: rest) (hdecode : decode r = .error why) : step s = .refused (.noSuchCommand why) := by
  simp only [step, fetch, hidle, hpending, hdecode]

theorem decode_command_of_bad_opcode {c : Byte} {why : DecodeError} (h : decodeOpcode c = .error why)
    (o : Operands) : decode (.command c o) = .error why := by
  simp only [decode, decodeCommand, h]

/-- Operands of the right kind that are not well formed spell nothing. -/
theorem decode_command_of_ill_formed {c : Byte} {o : Operands} {i : Instr} (hopcode : decodeOpcode c = .ok (opOf i))
    (ho : assemble (opOf i) o = .ok i) (hwf : i.wf = false) : decode (.command c o) = .error .illFormedOperand := by
  simp [decode, decodeCommand, hopcode, ho, hwf]

/-- Settles O16: each of the three requests is rejected by the decoder, so the step that takes it refuses. -/
theorem unspelledCommandsAreRefused : Obligations.UnspelledCommandsAreRefused := by
  refine fun s rest hidle => ⟨fun c o hc hpending => ?_, fun w fs hfs hpending => ?_, fun vs fs hfs hpending => ?_⟩
  · obtain ⟨why, hopcode⟩ := decodeOpcode_error hc
    exact ⟨why, step_of_rejects hidle hpending (decode_command_of_bad_opcode hopcode o)⟩
  · exact step_of_rejects hidle hpending (decode_command_of_ill_formed (i := .decode w fs) rfl rfl hfs)
  · exact step_of_rejects hidle hpending
      (decode_command_of_ill_formed (i := .encode vs fs) rfl rfl (by simp [Instr.wf, hfs]))

/-! ### Frames on the wire -/

/-- CLOSE puts no frame on the wire (44_register_map R186, R188). -/
theorem exec_close_adds_no_exchange {s t : State} (h : exec .close s = .next t) :
    ∃ added, t.xlog = s.xlog ++ added ∧ ∀ tx o, LogEntry.exchange tx o ∉ added := by
  obtain rfl := Host.Outcome.next.inj (h.symm.trans (exec_close s))
  cases s.closed
  · exact ⟨[.close], rfl, by simp⟩
  · exact ⟨[], by simp, by simp⟩

/-- Settles O22: every chain of exchanges emits legal frames, CLOSE and an inbound frame emit none. -/
theorem onlyLegalFramesAreEmitted : Obligations.OnlyLegalFramesAreEmitted := by
  intro i s t h
  by_cases hclose : opOf i = .close
  · obtain rfl := eq_close_of_opOf hclose
    obtain ⟨added, hlog, hnone⟩ := exec_close_adds_no_exchange h
    exact ⟨added, hlog, fun tx o hmem => (hnone tx o hmem).elim⟩
  by_cases hresponse : opOf i = .response
  · obtain ⟨st, d, rfl⟩ := eq_response_of_opOf hresponse
    obtain rfl : s.setRx (responseFrame st (toBytes d)) = t := Host.Outcome.next.inj h
    exact ⟨[], by simp, by simp⟩
  · obtain ⟨n, u, p, rs, hu, rfl⟩ := exec_chained h hclose hresponse
    obtain ⟨added, hlog, -, hlegal⟩ := hu.log
    refine ⟨added, hlog, fun tx o hmem => ?_⟩
    obtain ⟨_, _, he, htx⟩ := hlegal _ hmem
    cases he
    exact htx

/-! ### The frames as instructions -/

/-- A bare frame whose exchange answers: the whole state that its instruction ends in (43_transaction R160). -/
theorem finish_bareExchange_answers (op : Op) (p : Phase) (tx : Frame) {s : State} {rx : Frame}
    {rest : List ExchangeOutcome} (hopen : s.closed = false) (he : s.environment = .draws (.response rx :: rest)) :
    finish (bareExchange op p tx s) =
      { answered s (.ok (.frame rx)) with
        txBuf := tx, rxBuf := rx, xlog := s.xlog ++ [.exchange tx (.response rx)], environment := .draws rest
        remotePipeline := some tx, drawn := s.drawn + 1 } := by
  have hexchange := exchangeOrRaise_settled op 1 tx (s := s.setPhase p) he
  simp only [bareExchange, whileOpen, hopen, hexchange, precisely, andThen]
  rfl

/-- Settles O39: READ_REQ is the bare exchange of the read request frame. -/
theorem readRequestFrameIsExchanged : Obligations.ReadRequestFrameIsExchanged := fun _ a _ _ hopen he =>
  congrArg Host.Outcome.next (finish_bareExchange_answers .readReq (.rdEx1 a) (readFrame a) hopen he)

/-- Settles O40: WRITE_REQ is the bare exchange of the write request frame. -/
theorem writeRequestFrameIsExchanged : Obligations.WriteRequestFrameIsExchanged := fun _ a d _ _ hopen he =>
  congrArg Host.Outcome.next (finish_bareExchange_answers .writeReq (.wrEx a) (writeFrame a (toBytes d)) hopen he)

/-- Settles O41: the response that an inbound frame decodes to puts that same frame into the receive buffer. -/
theorem everyResponseIsAccepted : Obligations.EveryResponseIsAccepted := by
  intro s f
  have hframe : responseFrame f.b0 (toBytes (fromBytes f.data)) = f := by simp
  simp only [decodeInbound, exec, execResponse, hframe]
  rfl

end Sys2Proof.Machine
end

section
/-! Proofs about the codec: what DECODE reads, which word ENCODE builds under either overlap policy, the laws that join
the two (40_codec R101 to R117), and the byte order of the word (R112, R113). -/

namespace Sys2Proof.Machine

open Sys2Proof

/-! ### DECODE -/

/-- DECODE always succeeds, and only its result is written (40_codec R102, R114). -/
theorem exec_decode (w : Word) (fs : List FieldSpec) (s : State) :
    exec (.decode w fs) s = .next (answered s (.ok (.values (decodeFields w fs)))) := rfl

theorem decodeField_of_boolean {f : FieldSpec} (h : f.kind = .boolean) (w : Word) :
    decodeField w f = .bool (wordBits w f != 0) := by
  simp only [decodeField, h, extract_eq_wordBits]

theorem decodeField_of_uint {f : FieldSpec} (h : f.kind = .uint) (w : Word) : decodeField w f = .uint (wordBits w f) := by
  simp only [decodeField, h, extract_eq_wordBits]

/-- 40_codec R104: the kind and the bits of a field decide its value. -/
theorem decodeField_congr {w w' : Word} {f g : FieldSpec} (hkind : f.kind = g.kind)
    (hbits : wordBits w f = wordBits w' g) : decodeField w f = decodeField w' g := by
  simp only [decodeField, extract_eq_wordBits, hkind, hbits]

/-- Settles O1: DECODE's map lists the fields, each with its own bits. -/
theorem decodeGivesEachFieldItsBits : Obligations.DecodeGivesEachFieldItsBits := by
  intro s w fs hwf
  refine ⟨_, exec_decode w fs s, keys_decodeFields w fs, fun f hf => ?_⟩
  rw [decodeFields_lookup hwf w hf]
  cases hkind : f.kind with
  | boolean => rw [decodeField_of_boolean hkind]
  | uint => rw [decodeField_of_uint hkind]

/-- Settles O2: the two maps hold the values of `f` and `g`, which are equal. -/
theorem decodedFieldIsIndependent : Obligations.DecodedFieldIsIndependent := by
  intro s t w w' fs gs f g hfs hgs hf hg hkind hbits
  refine ⟨_, _, decodeField w f, exec_decode w fs s, exec_decode w' gs t, decodeFields_lookup hfs w hf, ?_⟩
  rw [decodeField_congr hkind hbits]
  exact decodeFields_lookup hgs w' hg

/-! ### ENCODE's loop, field by field -/

/-- ENCODE answers with the word that its loop builds (40_codec R105). -/
theorem exec_encode_of_ok {s : State} {vs : Values} {fs : List FieldSpec} {w : Word}
    (h : encodeFields none s.config.encodeOverlap vs fs 0 = .ok w) :
    exec (.encode vs fs) s = .next (answered s (.ok (.word w))) := by
  simp only [exec, execEncode, encodeRun, h]
  rfl

/-- ENCODE answers with the error that its loop stops at, and gives no word (40_codec R109). -/
theorem exec_encode_of_error {s : State} {vs : Values} {fs : List FieldSpec} {e : Error}
    (h : encodeFields none s.config.encodeOverlap vs fs 0 = .error e) :
    exec (.encode vs fs) s = .next (answered s (.err e)) := by
  simp only [exec, execEncode, encodeRun, h]
  rfl

/-- ENCODE puts at most one value into a field. -/
theorem encodes_unique {vs : Values} {f : FieldSpec} {u v : Value} (hu : encodes vs f u) (hv : encodes vs f v) : u = v :=
  Option.some.inj (hu.2.symm.trans hv.2)

section
variable {register : Option Nat} {policy : Overlap} {vs : Values} {f : FieldSpec} (fs : List FieldSpec) (w : Word)

/-- A read-only or omitted field puts nothing into the word (40_codec R106, R107). -/
theorem encodeFields_cons_of_skipped (h : ∀ v, ¬ encodes vs f v) :
    encodeFields register policy vs (f :: fs) w = encodeFields register policy vs fs w := by
  cases haccess : f.access with
  | ro => simp only [encodeFields, haccess]
  | rw =>
    cases hlookup : vs.lookup f.name with
    | none => simp only [encodeFields, haccess, hlookup]
    | some v => exact (h v ⟨haccess, hlookup⟩).elim

/-- A value in range goes into the word by the policy (40_codec R105, R111). -/
theorem encodeFields_cons_of_lt {v : Value} (h : encodes vs f v) (hlt : num v < 2 ^ f.bitWidth) :
    encodeFields register policy vs (f :: fs) w =
      encodeFields register policy vs fs (placeField policy f (num v) w) := by
  simp only [encodeFields, h.1, h.2, if_neg (Nat.not_le.2 hlt)]

/-- A value of `2^bit_width` or more stops the loop (40_codec R109). -/
theorem encodeFields_cons_of_le {v : Value} (h : encodes vs f v) (hle : 2 ^ f.bitWidth ≤ num v) :
    encodeFields register policy vs (f :: fs) w = .error (.range register f.name (num v) f.bitWidth) := by
  simp only [encodeFields, h.1, h.2, if_pos hle]

end

/-- 40_codec R109: fields in range before a field that is not do not hide its RangeError. -/
theorem encodeFields_of_first_out_of_range {register : Option Nat} {policy : Overlap} {vs : Values}
    {before : List FieldSpec} {f : FieldSpec} {v : Value} (hbefore : inRange vs before) (hv : encodes vs f v)
    (hle : 2 ^ f.bitWidth ≤ num v) (after : List FieldSpec) (w : Word) :
    encodeFields register policy vs (before ++ f :: after) w =
      .error (.range register f.name (num v) f.bitWidth) := by
  induction before generalizing w with
  | nil => exact encodeFields_cons_of_le after w hv hle
  | cons g before ih =>
    have hrest : inRange vs before := fun g' hg' => hbefore g' (.tail _ hg')
    by_cases hg : ∃ u, encodes vs g u
    · obtain ⟨u, hu⟩ := hg
      exact (encodeFields_cons_of_lt _ w hu (hbefore g (.head _) u hu)).trans (ih hrest _)
    · exact (encodeFields_cons_of_skipped _ w (not_exists.1 hg)).trans (ih hrest w)

/-- Settles O6: the loop stops at the first field out of range, and ends with a word where there is none. -/
theorem encodeNamesTheFirstFieldOutOfRange : Obligations.EncodeNamesTheFirstFieldOutOfRange := by
  refine ⟨fun s vs before after f v hbefore hv hle => ?_, fun s vs fs hrange => ?_⟩
  · exact exec_encode_of_error (encodeFields_of_first_out_of_range hbefore hv hle after 0)
  · obtain ⟨w, hw⟩ := encodeFields_of_inRange hrange 0
    exact ⟨w, exec_encode_of_ok hw⟩

/-! ### ENCODE's word, bit by bit -/

/-- Settles O3: the loop's bits under `or`, begun with the zero word. -/
theorem encodeOrsTheFields : Obligations.EncodeOrsTheFields := by
  intro s vs fs hwf hrange hpolicy
  obtain ⟨w, hw, hbits⟩ := encodeFields_or none vs fs (fun _ => field_wf hwf) hrange 0
  refine ⟨w, exec_encode_of_ok (hpolicy ▸ hw), fun i hi => ?_⟩
  simpa using hbits i hi

/-- Settles O4: the loop's bits under `last_wins`, begun with the zero word. -/
theorem encodeLastFieldWins : Obligations.EncodeLastFieldWins := by
  intro s vs fs hwf hrange hpolicy
  obtain ⟨w, hw, hlast, huncovered⟩ := encodeFields_last none vs fs (fun _ => field_wf hwf) hrange 0
  refine ⟨w, exec_encode_of_ok (hpolicy ▸ hw), hlast, fun i hi hnone => ?_⟩
  simpa using huncovered i hi hnone

/-! ### One field in the zero word -/

/-- In the zero word there is nothing to overlap with, so the policies agree (40_codec R111). -/
@[simp] theorem placeField_zero (policy : Overlap) (f : FieldSpec) (n : Nat) : placeField policy f n 0 = shifted f n := by
  cases policy <;> simp [placeField]

/-- A map of one value encodes to that value shifted into place. -/
theorem encodeFields_singleton {register : Option Nat} {policy : Overlap} {f : FieldSpec} {v : Value}
    (hrw : f.access = .rw) (hlt : num v < 2 ^ f.bitWidth) :
    encodeFields register policy [(f.name, v)] [f] 0 = .ok (shifted f (num v)) := by
  rw [encodeFields_cons_of_lt [] 0 ⟨hrw, List.lookup_cons_self⟩ hlt, placeField_zero]
  rfl

/-- Settles O7: one field in the zero word, at its greatest value and one above. -/
theorem rangeLaw : Obligations.RangeLaw := by
  intro s f _ hrw
  refine ⟨exec_encode_of_ok ?_, exec_encode_of_error ?_⟩
  · have hlt : num (.uint (2 ^ f.bitWidth - 1)) < 2 ^ f.bitWidth := Nat.sub_one_lt_of_lt (Nat.two_pow_pos _)
    rw [encodeFields_singleton hrw hlt, shifted, Nat.shiftLeft_eq]
    rfl
  · exact encodeFields_cons_of_le [] 0 ⟨hrw, List.lookup_cons_self⟩ (Nat.le_refl _)

/-! ### The word of fields without overlap -/

/-- The word holds the values that ENCODE puts into the fields, and zero elsewhere. -/
structure HoldsValues (vs : Values) (fs : List FieldSpec) (w : Word) : Prop where
  covered : ∀ f ∈ fs, ∀ v, encodes vs f v → wordBits w f = num v
  uncovered : ∀ i < 32, (∀ f ∈ fs, ∀ v, encodes vs f v → ¬ covers f i) → w.getLsbD i = false

/-- A bit that a field covers is a bit of the field's value. -/
theorem getLsbD_of_covers {f : FieldSpec} (hf : f.wf = true) {i : Nat} (hc : covers f i) (w : Word) :
    w.getLsbD i = (wordBits w f).testBit (i + f.bitWidth - (f.msbIndex + 1)) := by
  obtain ⟨hlow, hhigh⟩ := hc
  obtain ⟨-, -, -, hwidth⟩ := wf_bounds hf
  have hinside : i + f.bitWidth - (f.msbIndex + 1) < f.bitWidth := by omega
  have hplace : f.msbIndex + 1 - f.bitWidth + (i + f.bitWidth - (f.msbIndex + 1)) = i := by omega
  simp [wordBits_testBit, hinside, hplace]

/-- A field whose bits in the word are those of a number of its width has that number. -/
theorem wordBits_eq_of_bits {f : FieldSpec} (hf : f.wf = true) {w : Word} {n : Nat} (hn : n < 2 ^ f.bitWidth)
    (h : ∀ i, covers f i → w.getLsbD i = n.testBit (i + f.bitWidth - (f.msbIndex + 1))) : wordBits w f = n := by
  obtain ⟨-, -, -, hwidth⟩ := wf_bounds hf
  refine Nat.eq_of_testBit_eq fun j => ?_
  rw [wordBits_testBit]
  by_cases hj : j < f.bitWidth
  · have hplace : f.msbIndex + 1 - f.bitWidth + j + f.bitWidth - (f.msbIndex + 1) = j := by omega
    rw [h _ ⟨by omega, by omega⟩, hplace]
    simp [hj]
  · simp [hj, Nat.testBit_eq_false_of_lt (hn.trans_le (Nat.pow_le_pow_right (by decide) (Nat.le_of_not_lt hj)))]

theorem covers_lt {f : FieldSpec} (hf : f.wf = true) {i : Nat} (hc : covers f i) : i < 32 :=
  Nat.lt_succ_of_le (hc.2.trans (wf_bounds hf).1)

/-- Only one word holds the values. -/
theorem HoldsValues.unique {vs : Values} {fs : List FieldSpec} {w w' : Word} (hwf : fieldsWf fs = true)
    (h : HoldsValues vs fs w) (h' : HoldsValues vs fs w') : w = w' := by
  refine BitVec.eq_of_getLsbD_eq fun i hi => ?_
  by_cases hcovered : ∃ f ∈ fs, ∃ v, encodes vs f v ∧ covers f i
  · obtain ⟨f, hf, v, hv, hc⟩ := hcovered
    have hfwf := field_wf hwf hf
    rw [getLsbD_of_covers hfwf hc w, getLsbD_of_covers hfwf hc w', h.covered f hf v hv, h'.covered f hf v hv]
  · have hnone : ∀ f ∈ fs, ∀ v, encodes vs f v → ¬ covers f i := fun f hf v hv hc => hcovered ⟨f, hf, v, hv, hc⟩
    rw [h.uncovered i hi hnone, h'.uncovered i hi hnone]

section
variable {register : Option Nat} {vs : Values} {fs : List FieldSpec} (hwf : fieldsWf fs = true) (hrange : inRange vs fs)
  (hdisjoint : disjointFields fs)
include hwf hrange hdisjoint

/-- Under `or`, the one field that covers a bit decides it. -/
theorem encodeFields_or_holdsValues : ∃ w, encodeFields register .or vs fs 0 = .ok w ∧ HoldsValues vs fs w := by
  obtain ⟨w, hw, hbits⟩ := encodeFields_or register vs fs (fun _ => field_wf hwf) hrange 0
  refine ⟨w, hw, fun f hf v hv => ?_, fun i hi hnone => ?_⟩
  · refine wordBits_eq_of_bits (field_wf hwf hf) (hrange f hf v hv) fun i hc => ?_
    rw [Bool.eq_iff_iff, hbits i (covers_lt (field_wf hwf hf) hc)]
    constructor
    · rintro (hzero | ⟨g, hg, u, hu, hcg, hbit⟩)
      · simp at hzero
      · obtain rfl := fieldspec_inj hdisjoint hg hf hcg hc
        obtain rfl := encodes_unique hu hv
        exact hbit
    · exact fun hbit => .inr ⟨f, hf, v, hv, hc, hbit⟩
  · rw [← Bool.not_eq_true, hbits i hi]
    rintro (hzero | ⟨f, hf, v, hv, hc, -⟩)
    · simp at hzero
    · exact hnone f hf v hv hc

/-- Under `last_wins`, a field that covers a bit is the last one to cover it. -/
theorem encodeFields_last_holdsValues :
    ∃ w, encodeFields register .lastWins vs fs 0 = .ok w ∧ HoldsValues vs fs w := by
  obtain ⟨w, hw, hlast, huncovered⟩ := encodeFields_last register vs fs (fun _ => field_wf hwf) hrange 0
  refine ⟨w, hw, fun f hf v hv => ?_, fun i hi hnone => by simpa using huncovered i hi hnone⟩
  refine wordBits_eq_of_bits (field_wf hwf hf) (hrange f hf v hv) fun i hc => ?_
  obtain ⟨before, after, hsplit⟩ := List.append_of_mem hf
  obtain ⟨-, hafter, -⟩ := List.pairwise_append.1 (hsplit ▸ hdisjoint)
  exact hlast i before f after v (covers_lt (field_wf hwf hf) hc) hsplit hv hc
    fun g hg _ _ hcg => (List.pairwise_cons.1 hafter).1 g hg i ⟨hc, hcg⟩

/-- 40_codec R105, R111: on fields without overlap ENCODE builds the word of its values, whatever the policy. -/
theorem encodeFields_holdsValues (policy : Overlap) :
    ∃ w, encodeFields register policy vs fs 0 = .ok w ∧ HoldsValues vs fs w := by
  cases policy with
  | or => exact encodeFields_or_holdsValues hwf hrange hdisjoint
  | lastWins => exact encodeFields_last_holdsValues hwf hrange hdisjoint

/-- A word that holds the values is the word that ENCODE gives. -/
theorem exec_encode_of_holdsValues {w : Word} (h : HoldsValues vs fs w) (s : State) :
    exec (.encode vs fs) s = .next (answered s (.ok (.word w))) := by
  obtain ⟨w', hw', hholds⟩ := encodeFields_holdsValues hwf hrange hdisjoint s.config.encodeOverlap
  obtain rfl := h.unique hwf hholds
  exact exec_encode_of_ok hw'

end

/-- Settles O5: both policies build the one word that holds the values. -/
theorem overlapPoliciesAgreeOnDisjointFields : Obligations.OverlapPoliciesAgreeOnDisjointFields := by
  intro s s' vs fs hwf hrange hdisjoint _ _
  obtain ⟨w, -, hholds⟩ := encodeFields_holdsValues (register := none) hwf hrange hdisjoint .or
  exact ⟨w, exec_encode_of_holdsValues hwf hrange hdisjoint hholds s,
    exec_encode_of_holdsValues hwf hrange hdisjoint hholds s'⟩

/-! ### DECODE of ENCODE (40_codec R115) -/

/-- A value of the field's kind and width, taken apart. -/
theorem fits_cases {f : FieldSpec} {v : Value} (h : fits f v) :
    (f.kind = .boolean ∧ ∃ b, v = .bool b) ∨ (f.kind = .uint ∧ ∃ n, v = .uint n ∧ n < 2 ^ f.bitWidth) := by
  cases hkind : f.kind with
  | boolean =>
    cases v with
    | bool b => exact .inl ⟨rfl, b, rfl⟩
    | uint n => simp [fits, hkind] at h
  | uint =>
    cases v with
    | bool b => simp [fits, hkind] at h
    | uint n => exact .inr ⟨rfl, n, rfl, by simpa [fits, hkind] using h⟩

/-- A boolean is at most 1, and a field has at least one bit. -/
theorem num_lt_of_fits {f : FieldSpec} {v : Value} (hf : f.wf = true) (h : fits f v) : num v < 2 ^ f.bitWidth := by
  obtain ⟨-, b, rfl⟩ | ⟨-, n, rfl, hn⟩ := fits_cases h
  · have hone : num (.bool b) ≤ 1 := by cases b <;> decide
    exact hone.trans_lt (Nat.one_lt_two_pow (Nat.ne_of_gt (wf_bounds hf).2.1))
  · exact hn

/-- A field that holds the number of a value of its kind decodes to that value. -/
theorem decodeField_of_wordBits_eq_num {f : FieldSpec} {v : Value} {w : Word} (h : fits f v)
    (hbits : wordBits w f = num v) : decodeField w f = v := by
  obtain ⟨hkind, b, rfl⟩ | ⟨hkind, n, rfl, -⟩ := fits_cases h
  · rw [decodeField_of_boolean hkind, hbits]
    cases b <;> rfl
  · rw [decodeField_of_uint hkind, hbits]
    rfl

/-- Settles O8: the word holds the values, each field decodes to its own, and neither map has another key. -/
theorem decodeOfEncodeGivesTheValuesBack : Obligations.DecodeOfEncodeGivesTheValuesBack := by
  intro s t vs fs hwf hdisjoint hrw hassigns
  obtain ⟨-, hkeys, hfits⟩ := hassigns
  have hrange : inRange vs fs := fun f hf v hv => num_lt_of_fits (field_wf hwf hf) (hfits f hf v hv.2)
  obtain ⟨w, hw, hholds⟩ := encodeFields_holdsValues hwf hrange hdisjoint s.config.encodeOverlap
  refine ⟨w, _, exec_encode_of_ok hw, exec_decode w fs t, fun k => ?_⟩
  by_cases hk : k ∈ fieldNames fs
  · obtain ⟨v, hv⟩ := lookup_some_of_mem ((hkeys k).2 hk)
    obtain ⟨f, hf, rfl⟩ := List.mem_map.1 hk
    rw [decodeFields_lookup hwf w hf, hv,
      decodeField_of_wordBits_eq_num (hfits f hf v hv) (hholds.covered f hf v ⟨hrw f hf, hv⟩)]
  · have hdecoded : k ∉ keys (decodeFields w fs) := by rwa [keys_decodeFields]
    rw [lookup_none_of_not_mem hdecoded, lookup_none_of_not_mem (mt (hkeys k).1 hk)]

/-! ### ENCODE of DECODE (40_codec R117) -/

theorem wordBits_lt (w : Word) (f : FieldSpec) : wordBits w f < 2 ^ f.bitWidth := BitVec.isLt _

/-- A decoded value is its field's bits, or less for a boolean of more than one bit. -/
theorem num_decodeField_le (w : Word) (f : FieldSpec) : num (decodeField w f) ≤ wordBits w f := by
  cases hkind : f.kind with
  | boolean =>
    rw [decodeField_of_boolean hkind]
    by_cases hzero : wordBits w f = 0
    · simp [num, hzero]
    · simpa [num, hzero] using Nat.one_le_iff_ne_zero.2 hzero
  | uint =>
    rw [decodeField_of_uint hkind]
    exact Nat.le_refl _

/-- What ENCODE puts into a field from DECODE's map is the decoded value. -/
theorem encodes_decodeFields {fs : List FieldSpec} (hwf : fieldsWf fs = true) {w : Word} {f : FieldSpec} (hf : f ∈ fs)
    {v : Value} : encodes (decodeFields w fs) f v ↔ f.access = .rw ∧ decodeField w f = v := by
  rw [encodes, decodeFields_lookup hwf w hf, Option.some.injEq]

/-- Decoded values always fit their fields. -/
theorem inRange_decodeFields {fs : List FieldSpec} (hwf : fieldsWf fs = true) (w : Word) :
    inRange (decodeFields w fs) fs := by
  intro f hf v hv
  obtain ⟨-, rfl⟩ := (encodes_decodeFields hwf hf).1 hv
  exact (num_decodeField_le w f).trans_lt (wordBits_lt w f)

/-- For writable unsigned fields the covered bits of a word hold what it decodes to. -/
theorem holdsValues_and_coverMask {fs : List FieldSpec} (hwf : fieldsWf fs = true) (hrw : ∀ f ∈ fs, f.access = .rw)
    (huint : ∀ f ∈ fs, f.kind = .uint) (w : Word) : HoldsValues (decodeFields w fs) fs (w &&& coverMask fs) where
  covered f hf v hv := by
    obtain ⟨-, rfl⟩ := (encodes_decodeFields hwf hf).1 hv
    have hfwf := field_wf hwf hf
    have hkept : ∀ i, covers f i → (w &&& coverMask fs).getLsbD i = w.getLsbD i := fun i hc => by
      have hmask := (cover_bit (fun _ => field_wf hwf) (covers_lt hfwf hc)).2 ⟨f, hf, hc⟩
      rw [BitVec.getLsbD_and, hmask, Bool.and_true]
    rw [decodeField_of_uint (huint f hf)]
    exact wordBits_congr hfwf hkept
  uncovered i hi hnone := by
    have hmask : (coverMask fs).getLsbD i = false := by
      rw [← Bool.not_eq_true, cover_bit (fun _ => field_wf hwf) hi]
      rintro ⟨f, hf, hc⟩
      exact hnone f hf _ ((encodes_decodeFields hwf hf).2 ⟨hrw f hf, rfl⟩) hc
    rw [BitVec.getLsbD_and, hmask, Bool.and_false]

/-- Settles O9: the covered bits of the word hold the decoded values, so ENCODE gives them back; and `0b10` in a
boolean of two bits decodes to `true`, which encodes to 1. -/
theorem encodeOfDecodeKeepsTheCoveredBits : Obligations.EncodeOfDecodeKeepsTheCoveredBits := by
  refine ⟨fun s t w fs hwf hdisjoint hrw huint => ?_, fun s t name => ?_⟩
  · exact ⟨_, exec_decode w fs s, exec_encode_of_holdsValues hwf (inRange_decodeFields hwf w) hdisjoint
      (holdsValues_and_coverMask hwf hrw huint w) t⟩
  · have hdecoded : decodeField 2 ⟨name, 1, 2, .boolean, .rw⟩ = .bool true := by
      rw [decodeField_of_boolean rfl]
      change Value.bool (((2 : Word).extractLsb' 0 2).toNat != 0) = .bool true
      decide
    refine ⟨_, exec_decode _ _ s, exec_encode_of_ok ?_⟩
    rw [decodeFields, List.map_singleton, hdecoded]
    exact encodeFields_singleton (f := ⟨name, 1, 2, .boolean, .rw⟩) rfl (show 1 < 2 ^ 2 by decide)

/-! ### The pure commands (40_codec R114, 44_register_map R187) -/

theorem pureOps_cases {i : Instr} (h : opOf i ∈ pureOps) :
    (∃ w fs, i = .decode w fs) ∨ (∃ vs fs, i = .encode vs fs) ∨ ∃ b, i = .statusUpdate b := by
  cases i with
  | decode w fs => exact .inl ⟨w, fs, rfl⟩
  | encode vs fs => exact .inr (.inl ⟨vs, fs, rfl⟩)
  | statusUpdate b => exact .inr (.inr ⟨b, rfl⟩)
  | readRegister | writeRegister | regRead | regWrite | regGet | readAll | getStatus | lookup | close | readReq
  | writeReq | response => simp [opOf, pureOps] at h

theorem exec_statusUpdate (b : Byte) (s : State) :
    exec (.statusUpdate b) s = .next (answered s (.ok (.flags (statusFlags s.config.statusLayout b)))) := rfl

/-- Settles O10: of the state, DECODE reads nothing, ENCODE the overlap policy and STATUS_UPDATE the layout. -/
theorem pureCommandsReadNoBlockState : Obligations.PureCommandsReadNoBlockState := by
  intro i hi s s' hconfig
  obtain ⟨w, fs, rfl⟩ | ⟨vs, fs, rfl⟩ | ⟨b, rfl⟩ := pureOps_cases hi
  · exact ⟨_, exec_decode w fs s, exec_decode w fs s'⟩
  · cases h : encodeFields none s.config.encodeOverlap vs fs 0 with
    | ok w => exact ⟨_, exec_encode_of_ok h, exec_encode_of_ok (hconfig ▸ h)⟩
    | error e => exact ⟨_, exec_encode_of_error h, exec_encode_of_error (hconfig ▸ h)⟩
  · exact ⟨_, exec_statusUpdate b s, hconfig ▸ exec_statusUpdate b s'⟩

/-! ### The byte order (40_codec R112, R113) -/

/-- A byte put below a number is its last digit in base 256. -/
theorem toNat_append_byte {n : Nat} (x : BitVec n) (b : Byte) : (x ++ b).toNat = x.toNat * 2 ^ 8 + b.toNat := by
  rw [BitVec.toNat_append, ← Nat.shiftLeft_add_eq_or_of_lt b.isLt, Nat.shiftLeft_eq]

/-- Settles O11: the bytes are the digits of the word in base 256, the first one the greatest. -/
theorem wordBytesAreBigEndianAndInvert : Obligations.WordBytesAreBigEndianAndInvert := by
  refine ⟨fun _ => rfl, fun d0 d1 d2 d3 => ?_, fromBytes_toBytes, toBytes_fromBytes⟩
  simp only [fromBytes, toNat_append_byte]
  ring

end Sys2Proof.Machine
end

section
/-! Proofs about the Register commands: what REG_READ commits, which checks REG_WRITE makes and which word it sends, and
what REG_GET answers (41_register R130 to R143). -/

namespace Sys2Proof.Machine

open Sys2Proof

/-! ### The checks that stand first (60_exceptions R204, R205) -/

section
variable {α : Type} {s : State}

theorem whileOpen_of_open (h : s.closed = false) (op : Op) (k : Run α) : whileOpen op s k = k := by
  simp [whileOpen, h]

theorem whileOpen_of_closed (h : s.closed = true) (op : Op) (k : Run α) : whileOpen op s k = .raised (.closed op) s :=
  if_pos h

theorem withRegister_of_none {reg : RegRef} (h : resolve s.config.table reg = none) (k : Nat → Run α) :
    withRegister reg s k = .raised (.notFoundRegister reg) s := by
  simp only [withRegister, h]

theorem withRegister_of_some {reg : RegRef} {r : Nat} (h : resolve s.config.table reg = some r) (k : Nat → Run α) :
    withRegister reg s k = k r := by
  simp only [withRegister, h]

end

/-- The fields of a register depend on the configuration only (10_state R25). -/
theorem registerFields_congr {s t : State} (h : t.config = s.config) (r : Nat) :
    registerFields t r = registerFields s r := by
  simp only [registerFields, registerSpec, h]

/-- The field list of a register of the table is well formed (10_state R28). -/
theorem registerFields_wf {s : State} {reg : RegRef} {r : Nat} (hwf : s.config.wf = true)
    (hr : resolve s.config.table reg = some r) : fieldsWf (registerFields s r) = true :=
  spec_wf hwf (mem_of_resolve hr)

/-! ### REG_READ -/

section
variable {s : State} {reg : RegRef}

theorem exec_regRead_of_closed (h : s.closed = true) :
    exec (.regRead reg) s = .next (answered s (.err (.closed .regRead))) := by
  simp only [exec, execRegRead, regReadRun, whileOpen_of_closed h]
  rfl

variable (hopen : s.closed = false)
include hopen

theorem exec_regRead_of_no_register (hr : resolve s.config.table reg = none) :
    exec (.regRead reg) s = .next (answered s (.err (.notFoundRegister reg))) := by
  simp only [exec, execRegRead, regReadRun, whileOpen_of_open hopen, withRegister_of_none hr]
  rfl

/-- 41_register R130: `ReadSeq` of the register's address, and then the commit. -/
theorem exec_regRead {r : Nat} (hr : resolve s.config.table reg = some r) :
    exec (.regRead reg) s = .next (finish (andThen (readSeq .regRead (registerAddr s r) s) fun x s1 =>
      .done .none (commitRead r x.1 x.2 s1))) := by
  simp only [exec, execRegRead, regReadRun, whileOpen_of_open hopen, withRegister_of_some hr]

end

/-- Settles O43: both exchanges of `ReadSeq` answer, and the commit takes the second answer. -/
theorem regReadCommitsTheSecondResponse : Obligations.RegReadCommitsTheSecondResponse := by
  intro s reg r r0 r1 rest hopen hr he
  rw [exec_regRead hopen hr, readSeq_answers _ _ _ _ _ _ he]
  rfl

@[simp] theorem commitRead_results (r : Nat) (st : Byte) (d : DataBytes) (s : State) :
    (commitRead r st d s).results = s.results := rfl

@[simp] theorem commitRead_cache (r : Nat) (st : Byte) (d : DataBytes) (s : State) :
    (commitRead r st d s).cache = s.cache.set r (some (decodeFields (fromBytes d) (registerFields s r))) := rfl

@[simp] theorem commitRead_statusRaw (r : Nat) (st : Byte) (d : DataBytes) (s : State) :
    (commitRead r st d s).statusRaw = some st := rfl

@[simp] theorem commitRead_status (r : Nat) (st : Byte) (d : DataBytes) (s : State) :
    (commitRead r st d s).status = some (statusFlags s.config.statusLayout st) := rfl

/-- Settles O44: the two checks raise in the state as it is, and of the three ends of `ReadSeq` only the one with a
value commits. -/
theorem regReadIsAllOrNothing : Obligations.RegReadIsAllOrNothing := by
  intro s reg
  cases hclosed : s.closed with
  | true => exact ⟨_, exec_regRead_of_closed hclosed, nofun, .inl ⟨_, rfl, rfl, rfl, rfl⟩⟩
  | false =>
    cases hr : resolve s.config.table reg with
    | none => exact ⟨_, exec_regRead_of_no_register hclosed hr, fun _ _ => rfl, .inl ⟨_, rfl, rfl, rfl, rfl⟩⟩
    | some r =>
      have hexec := exec_regRead hclosed hr
      have hends := engine_readSeq .regRead (registerAddr s r) s
      cases hread : readSeq .regRead (registerAddr s r) s with
      | done x u =>
        rw [hread] at hexec hends
        have htraffic : Traffic 2 s u := hends
        refine ⟨giveOk .none (commitRead r x.1 x.2 u), hexec, nofun,
          .inr (.inl ⟨r, decodeFields (fromBytes x.2) (registerFields s r), x.1, rfl, ?_, ?_, ?_, rfl, ?_⟩)⟩
        · simp [htraffic.results]
        · simp [htraffic.cache, registerFields_congr htraffic.config]
        · exact keys_decodeFields _ _
        · simp [htraffic.config]
      | raised e u =>
        rw [hread] at hexec hends
        obtain ⟨haborted, -⟩ := hends
        exact ⟨takeError e u, hexec, nofun,
          .inl ⟨e, by simp [haborted.results], haborted.cache, haborted.status, haborted.statusRaw⟩⟩
      | stuck u =>
        rw [hread] at hexec hends
        obtain ⟨htraffic, hbusy, -⟩ := hends
        exact ⟨u, hexec, nofun,
          .inr (.inr ⟨hbusy, htraffic.results, htraffic.cache, htraffic.status, htraffic.statusRaw⟩)⟩

/-! ### REG_GET -/

section
variable {s : State} {reg : RegRef} {name : String}

theorem exec_regGet_of_closed (h : s.closed = true) :
    exec (.regGet reg name) s = .next (answered s (.err (.closed .regGet))) := by
  simp only [exec, execRegGet, regGetRun, whileOpen_of_closed h]
  rfl

variable (hopen : s.closed = false)
include hopen

theorem exec_regGet_of_no_register (hr : resolve s.config.table reg = none) :
    exec (.regGet reg name) s = .next (answered s (.err (.notFoundRegister reg))) := by
  simp only [exec, execRegGet, regGetRun, whileOpen_of_open hopen, withRegister_of_none hr]
  rfl

variable {r : Nat} (hr : resolve s.config.table reg = some r)
include hr

theorem exec_regGet_of_undeclared (hname : name ∉ fieldNames (registerFields s r)) :
    exec (.regGet reg name) s = .next (answered s (.err (.notFoundFields r [name]))) := by
  simp only [exec, execRegGet, regGetRun, whileOpen_of_open hopen, withRegister_of_some hr, if_pos hname]
  rfl

/-- A declared name is looked up in the cache (41_register R140). -/
theorem exec_regGet_of_declared (hname : name ∈ fieldNames (registerFields s r)) :
    exec (.regGet reg name) s = .next (finish (cachedValue r name s)) := by
  simp only [exec, execRegGet, regGetRun, whileOpen_of_open hopen, withRegister_of_some hr,
    if_neg (not_not_intro hname)]

end

/-- Settles O46: the checks in their order, and then what the cache entry holds. -/
theorem regGetReadsTheCache : Obligations.RegGetReadsTheCache := by
  refine fun s reg name hopen => ⟨exec_regGet_of_no_register hopen, fun r hr =>
    ⟨exec_regGet_of_undeclared hopen hr, fun hname hentry => ?_, fun m v hname hentry hvalue => ?_⟩⟩
  · rw [exec_regGet_of_declared hopen hr hname, cachedValue_of_unread hentry]
    rfl
  · rw [exec_regGet_of_declared hopen hr hname, cachedValue_of_found hentry hvalue]
    rfl

/-- A read that answers leaves the decoded map in the cache entry of its register (41_register R132). -/
theorem exec_regRead_caches {s : State} {reg : RegRef} {r : Nat} {r0 r1 : Frame} {rest : List ExchangeOutcome}
    (hinv : Inv s) (hopen : s.closed = false) (hr : resolve s.config.table reg = some r)
    (he : s.environment = .draws (.response r0 :: .response r1 :: rest)) :
    ∃ t, exec (.regRead reg) s = .next t ∧ t.config = s.config ∧ t.closed = false ∧
      cacheEntry t r = some (decodeFields (fromBytes r1.data) (registerFields s r)) := by
  refine ⟨_, regReadCommitsTheSecondResponse s reg r r0 r1 rest hopen hr he, rfl, hopen, ?_⟩
  have hcached : r < s.cache.length := hinv.cacheLength ▸ mem_of_resolve hr
  simp only [cacheEntry, List.getD, List.getElem?_set_self hcached, Option.getD_some]
  rfl

/-- Settles O47: REG_GET finds the field's value in the map that REG_READ left in the cache. -/
theorem readThenGetGivesTheField : Obligations.ReadThenGetGivesTheField := by
  intro s reg r f r0 r1 rest hinv hopen hr hf he
  obtain ⟨t, hread, hconfig, hstillOpen, hentry⟩ := exec_regRead_caches hinv hopen hr he
  have hname : f.name ∈ fieldNames (registerFields t r) := by
    rw [registerFields_congr hconfig]
    exact List.mem_map_of_mem hf
  have hvalue := decodeFields_lookup (registerFields_wf hinv.configWf hr) (fromBytes r1.data) hf
  obtain ⟨-, -, hget⟩ := (regGetReadsTheCache t reg f.name hstillOpen).2 r (hconfig ▸ hr)
  refine ⟨t, hread, ?_⟩
  rw [hget _ _ hname hentry hvalue]
  cases hkind : f.kind with
  | boolean => rw [decodeField_of_boolean hkind]; rfl
  | uint => rw [decodeField_of_uint hkind]; rfl

/-- What REG_GET's lookup in the cache answers depends on the entry only (41_register R140). -/
theorem finish_cachedValue_congr {s t : State} {r : Nat} (h : cacheEntry t r = cacheEntry s r) (name : String) :
    ∃ res, finish (cachedValue r name s) = answered s res ∧ finish (cachedValue r name t) = answered t res := by
  cases hentry : cacheEntry s r with
  | none =>
    exact ⟨_, congrArg finish (cachedValue_of_unread hentry),
      congrArg finish (cachedValue_of_unread (h.trans hentry))⟩
  | some m =>
    cases hvalue : m.lookup name with
    | none =>
      exact ⟨_, congrArg finish (cachedValue_of_missing hentry hvalue),
        congrArg finish (cachedValue_of_missing (h.trans hentry) hvalue)⟩
    | some v =>
      exact ⟨_, congrArg finish (cachedValue_of_found hentry hvalue),
        congrArg finish (cachedValue_of_found (h.trans hentry) hvalue)⟩

/-- REG_GET reads the configuration, `Closed` and the cache, and nothing else (41_register R140, R141). -/
theorem exec_regGet_congr {s t : State} (hconfig : t.config = s.config) (hclosed : t.closed = s.closed)
    (hcache : t.cache = s.cache) (reg : RegRef) (name : String) :
    ∃ res, exec (.regGet reg name) s = .next (answered s res) ∧ exec (.regGet reg name) t = .next (answered t res) := by
  cases hs : s.closed with
  | true => exact ⟨_, exec_regGet_of_closed hs, exec_regGet_of_closed (hclosed.trans hs)⟩
  | false =>
    have ht : t.closed = false := hclosed.trans hs
    cases hr : resolve s.config.table reg with
    | none => exact ⟨_, exec_regGet_of_no_register hs hr, exec_regGet_of_no_register ht (hconfig ▸ hr)⟩
    | some r =>
      have hrt : resolve t.config.table reg = some r := hconfig ▸ hr
      have hfields := registerFields_congr hconfig r
      by_cases hname : name ∈ fieldNames (registerFields s r)
      · obtain ⟨res, hgets, hgett⟩ := finish_cachedValue_congr (s := s) (t := t) (r := r)
          (by simp only [cacheEntry, hcache]) name
        exact ⟨res, (exec_regGet_of_declared hs hr hname).trans (congrArg _ hgets),
          (exec_regGet_of_declared ht hrt (hfields ▸ hname)).trans (congrArg _ hgett)⟩
      · exact ⟨_, exec_regGet_of_undeclared hs hr hname, exec_regGet_of_undeclared ht hrt (hfields ▸ hname)⟩

/-- Settles O48: REG_WRITE leaves the three things that REG_GET reads. -/
theorem writeDoesNotChangeWhatGetReturns : Obligations.WriteDoesNotChangeWhatGetReturns := by
  intro s t reg reg' vs name h
  have hcache : t.cache = s.cache := (cacheIsWrittenByReadsOnly _ s t h).1 nofun nofun
  obtain ⟨hconfig, -, hkept, -⟩ := frameOfEveryInstruction _ s t h
  exact ⟨hcache, exec_regGet_congr hconfig (hkept nofun).1 hcache reg' name⟩

/-! ### REG_WRITE -/

section
variable {s : State} {reg : RegRef} {vs : Values} (hopen : s.closed = false)
include hopen

theorem exec_regWrite_of_no_register (hr : resolve s.config.table reg = none) :
    exec (.regWrite reg vs) s = .next (answered s (.err (.notFoundRegister reg))) := by
  simp only [exec, execRegWrite, regWriteRun, whileOpen_of_open hopen, withRegister_of_none hr]
  rfl

variable {r : Nat} (hr : resolve s.config.table reg = some r)
include hr

theorem exec_regWrite_of_unknown_key (h : unknownKeys (registerFields s r) vs ≠ []) :
    exec (.regWrite reg vs) s =
      .next (answered s (.err (.notFoundFields r (unknownKeys (registerFields s r) vs)))) := by
  simp only [exec, execRegWrite, regWriteRun, whileOpen_of_open hopen, withRegister_of_some hr, if_pos h]
  rfl

variable (hdeclared : ∀ k ∈ keys vs, k ∈ fieldNames (registerFields s r))
include hdeclared

theorem exec_regWrite_of_readOnly_key (h : readOnlyKeys (registerFields s r) vs ≠ []) :
    exec (.regWrite reg vs) s = .next (answered s (.err (.access r (readOnlyKeys (registerFields s r) vs)))) := by
  simp only [exec, execRegWrite, regWriteRun, whileOpen_of_open hopen, withRegister_of_some hr,
    unknownKeys_eq_nil hdeclared, ne_eq, not_true_eq_false, if_false, if_pos h]
  rfl

/-- With its keys checked, REG_WRITE merges, encodes and sends (41_register R134). -/
theorem exec_regWrite_of_writable_keys (h : ∀ f ∈ registerFields s r, f.access = .ro → f.name ∉ keys vs) :
    exec (.regWrite reg vs) s = .next (finish (mergedWrite r vs s)) := by
  simp only [exec, execRegWrite, regWriteRun, whileOpen_of_open hopen, withRegister_of_some hr,
    unknownKeys_eq_nil hdeclared, readOnlyKeys_eq_nil h, ne_eq, not_true_eq_false, if_false]

end

/-- Settles O30: an offending key makes its name set nonempty, and the first field out of range stops the encoder. -/
theorem regWriteChecksInOrder : Obligations.RegWriteChecksInOrder := by
  refine fun s reg vs hopen => ⟨exec_regWrite_of_no_register hopen, fun r hr => ⟨?_, ?_, ?_⟩⟩
  · rintro ⟨k, hk⟩
    exact ⟨_, fun _ => unknownKeys_mem,
      exec_regWrite_of_unknown_key hopen hr (List.ne_nil_of_mem (unknownKeys_mem.2 hk))⟩
  · rintro hdeclared ⟨f, hf, hro, hkey⟩
    exact ⟨_, fun _ => readOnlyKeys_mem, exec_regWrite_of_readOnly_key hopen hr hdeclared
      (List.ne_nil_of_mem (readOnlyKeys_mem.2 ⟨f, hf, rfl, hro, hkey⟩))⟩
  · intro before f after v hdeclared hwritable hsplit hbefore hv hle
    rw [exec_regWrite_of_writable_keys hopen hr hdeclared hwritable, mergedWrite_of_error]
    · rfl
    · rw [hsplit]
      exact encodeFields_of_first_out_of_range hbefore hv hle after 0

/-- The overlay of a write's response, field by field (41_register R139). -/
theorem overlayWrite_eq (rx : Frame) (s : State) :
    overlayWrite rx s =
      { s with
        statusRaw := if s.config.overlayWriteStatus then some rx.b0 else s.statusRaw
        status :=
          if s.config.overlayWriteStatus then some (statusFlags s.config.statusLayout rx.b0) else s.status } := by
  unfold overlayWrite
  split <;> rfl

/-- The word that an accepted REG_WRITE encodes, and the whole state that it ends in where its exchange answers
(41_register R134, R138, R139). -/
theorem exec_regWrite_answers {s : State} {reg : RegRef} {r : Nat} {vs : Values} {rx : Frame}
    {rest : List ExchangeOutcome} (hopen : s.closed = false) (hr : resolve s.config.table reg = some r)
    (haccepts : acceptsWrite s r vs) (he : s.environment = .draws (.response rx :: rest)) :
    ∃ w, (∀ register, encodeFields register s.config.encodeOverlap (mergeValues vs (mergeBase s r))
        (registerFields s r) 0 = .ok w) ∧
      exec (.regWrite reg vs) s = .next
        { answered s (.ok .none) with
          statusRaw := if s.config.overlayWriteStatus then some rx.b0 else s.statusRaw
          status := if s.config.overlayWriteStatus then some (statusFlags s.config.statusLayout rx.b0) else s.status
          txBuf := writeFrame (registerAddr s r) (toBytes w)
          rxBuf := rx
          xlog := s.xlog ++ [.exchange (writeFrame (registerAddr s r) (toBytes w)) (.response rx)]
          environment := .draws rest
          remotePipeline := some (writeFrame (registerAddr s r) (toBytes w))
          drawn := s.drawn + 1 } := by
  obtain ⟨w, hw, hrun⟩ := regWriteRun_of_accepts hopen hr haccepts
  refine ⟨w, hw, ?_⟩
  simp only [exec, execRegWrite, hrun, writeSeq_answers _ _ _ _ _ _ he, andThen, overlayWrite_eq]
  rfl

/-- Settles O45: the merged map by its lookups, its word by ENCODE, and the state of the write that answers. -/
theorem regWriteSendsTheMergedWord : Obligations.RegWriteSendsTheMergedWord := by
  intro s reg r vs rx rest hopen hr hdeclared hwritable hrange he
  obtain ⟨w, hw, hexec⟩ := exec_regWrite_answers hopen hr ⟨hdeclared, hwritable, hrange⟩ he
  refine ⟨mergeValues vs (mergeBase s r), w, fun k => ?_, fun s0 hconfig => ?_, hexec⟩
  · rw [merge_lookup, mergeBase]
    cases vs.lookup k <;> cases cacheEntry s r <;> rfl
  · exact exec_encode_of_ok (hconfig ▸ hw none)

/-- A writable field that `values` does not name is encoded from its cached value (41_register R136). -/
theorem encodes_cached {s : State} {r : Nat} {f : FieldSpec} {m vs : Values} {v : Value} (hrw : f.access = .rw)
    (hentry : cacheEntry s r = some m) (hvalue : m.lookup f.name = some v) (hname : f.name ∉ keys vs) :
    encodes (mergeValues vs (mergeBase s r)) f v :=
  ⟨hrw, by rw [merge_lookup, lookup_none_of_not_mem hname, mergeBase, hentry]; exact hvalue⟩

/-- Settles O50: on disjoint fields the word holds the number of each merged value, which for a cached boolean is 0
or 1. -/
theorem booleanWritesBackAsZeroOrOne : Obligations.BooleanWritesBackAsZeroOrOne := by
  intro s reg r f m b vs rx rest hwf hopen hr hdisjoint hf hrw hentry hvalue hname hdeclared hwritable hrange he
  obtain ⟨w, hw, hexec⟩ := exec_regWrite_answers hopen hr ⟨hdeclared, hwritable, hrange⟩ he
  obtain ⟨w', hw', hholds⟩ := encodeFields_holdsValues (register := none) (registerFields_wf hwf hr) hrange hdisjoint
    s.config.encodeOverlap
  obtain rfl : w = w' := Except.ok.inj ((hw none).symm.trans hw')
  exact ⟨_, w, hexec, rfl, hholds.covered f hf _ (encodes_cached hrw hentry hvalue hname)⟩

end Sys2Proof.Machine
end

section
/-! Proofs about the Status Overlay: which flags a status byte gives (42_status_overlay R150 to R154). -/

namespace Sys2Proof.Machine

open Sys2Proof

/-! ### Well-formed layouts (42_status_overlay R152) -/

section
variable {layout : List FlagSpec}

theorem layoutWf_names_nodup (h : layoutWf layout = true) : (layout.map FlagSpec.name).Nodup := by
  simp only [layoutWf, Bool.and_eq_true, decide_eq_true_eq] at h
  obtain ⟨⟨_, hnames⟩, _⟩ := h
  exact hnames

theorem fixedFlags_subset_of_layoutWf (h : layoutWf layout = true) : fixedFlags ⊆ layout := by
  simp only [layoutWf, Bool.and_eq_true, List.all_eq_true, decide_eq_true_eq] at h
  obtain ⟨_, hfixed⟩ := h
  exact hfixed

/-! ### STATUS_UPDATE's map (42_status_overlay R150, R154) -/

theorem statusFlags_lookup (h : layoutWf layout = true) (b : Byte) {p : FlagSpec} (hp : p ∈ layout) :
    (statusFlags layout b).lookup p.name = some (b.getLsbD p.bit) :=
  lookup_map_of_mem FlagSpec.name (fun q => b.getLsbD q.bit) layout (layoutWf_names_nodup h) p hp

theorem statusFlags_lookup_fixed (h : layoutWf layout = true) (b : Byte) {p : FlagSpec} (hp : p ∈ fixedFlags) :
    (statusFlags layout b).lookup p.name = some (b.getLsbD p.bit) :=
  statusFlags_lookup h b (fixedFlags_subset_of_layoutWf h hp)

@[simp] theorem statusFlags_keys (layout : List FlagSpec) (b : Byte) :
    (statusFlags layout b).map Prod.fst = layout.map FlagSpec.name :=
  List.map_map

/-- STATUS_UPDATE names flags of the layout only (42_status_overlay R154). -/
theorem exists_flag_of_statusFlags_lookup {b : Byte} {n : String}
    (h : ((statusFlags layout b).lookup n).isSome = true) : ∃ p ∈ layout, p.name = n := by
  by_contra hnone
  have habsent : n ∉ (statusFlags layout b).map Prod.fst := by
    rwa [statusFlags_keys, List.mem_map]
  rw [lookup_none_of_not_mem habsent] at h
  cases h

end

/-- Settles O51: the names of a layout are distinct, so each flag keeps its bit; the four fixed flags stand in every
layout. -/
theorem statusUpdateGivesTheNamedBits : Obligations.StatusUpdateGivesTheNamedBits := by
  intro s b hwf
  exact ⟨_, exec_statusUpdate b s, fun _ hp => statusFlags_lookup hwf b hp,
    fun _ => exists_flag_of_statusFlags_lookup,
    statusFlags_lookup_fixed hwf b (p := ⟨0, "reset_flag"⟩) (by decide),
    statusFlags_lookup_fixed hwf b (p := ⟨1, "driver_error"⟩) (by decide),
    statusFlags_lookup_fixed hwf b (p := ⟨2, "sg2"⟩) (by decide),
    statusFlags_lookup_fixed hwf b (p := ⟨3, "standstill"⟩) (by decide)⟩

end Sys2Proof.Machine
end

section
/-! Proofs about the transaction engine: how many exchanges an instruction performs, and how READ_REGISTER, REG_READ,
WRITE_REGISTER and REG_WRITE end for each way that an exchange can end (43_transaction R160 to R168). -/

namespace Sys2Proof.Machine

open Sys2Proof

/-! ### How many exchanges -/

theorem exchangeCount_eq_zero {l : List LogEntry} (h : ∀ tx o, LogEntry.exchange tx o ∉ l) : exchangeCount l = 0 := by
  refine List.countP_eq_zero.2 fun e he => ?_
  cases e with
  | exchange tx o => exact (h tx o he).elim
  | close => exact Bool.false_ne_true

/-- A chain of at most `n` frames logs at most `n` exchanges. -/
theorem Chained.exchangeCount_le {n m : Nat} {s t : State} (h : Chained n s t) (hnm : n ≤ m) :
    ∃ added, t.xlog = s.xlog ++ added ∧ exchangeCount added ≤ m := by
  obtain ⟨added, hlog, hlength, -⟩ := h.log
  exact ⟨added, hlog, List.countP_le_length.trans (hlength.trans hnm)⟩

/-- Settles O23: every chain of exchanges keeps to the budget of its instruction, CLOSE and an inbound frame perform
none. -/
theorem exchangesPerInstruction : Obligations.ExchangesPerInstruction := by
  intro i s t h
  by_cases hclose : opOf i = .close
  · obtain rfl := eq_close_of_opOf hclose
    obtain ⟨added, hlog, hnone⟩ := exec_close_adds_no_exchange h
    exact ⟨added, hlog, (exchangeCount_eq_zero hnone).le⟩
  by_cases hresponse : opOf i = .response
  · obtain ⟨st, d, rfl⟩ := eq_response_of_opOf hresponse
    obtain rfl : s.setRx (responseFrame st (toBytes d)) = t := Host.Outcome.next.inj h
    exact ⟨[], (List.append_nil _).symm, Nat.zero_le _⟩
  · obtain ⟨t', ht', hend⟩ := exec_general i s hclose hresponse
    obtain rfl : t = t' := Host.Outcome.next.inj (h.symm.trans ht')
    obtain ⟨r, -, rfl⟩ | ⟨-, n, p, c, hn, hc, rfl⟩ | ⟨-, n, e, u, hn, hu, -, rfl⟩ |
      ⟨-, n, u, hn, hu, -, rfl⟩ := hend
    · exact ⟨[], (List.append_nil _).symm, Nat.zero_le _⟩
    · exact hc.exchangeCount_le hn
    · exact hu.exchangeCount_le hn
    · exact hu.exchangeCount_le hn

/-! ### The raw commands of an open block -/

section
variable {s : State} (hopen : s.closed = false) (a : Addr)
include hopen

/-- 43_transaction R161: `ReadSeq`, whose answer is the payload. -/
theorem exec_readRegister :
    exec (.readRegister a) s = .next (finish (andThen (readSeq .readRegister a s) fun x s1 =>
      .done (.readData x.1 x.2) s1)) := by
  simp only [exec, execReadRegister, readRegisterRun, whileOpen_of_open hopen]

/-- 43_transaction R164: `WriteSeq`, whose response is discarded. -/
theorem exec_writeRegister (d : DataBytes) :
    exec (.writeRegister a d) s = .next (finish (andThen (writeSeq .writeRegister a d s) fun _ s1 =>
      .done .none s1)) := by
  simp only [exec, execWriteRegister, writeRegisterRun, whileOpen_of_open hopen]

end

/-- Settles O32: both exchanges of `ReadSeq` answer, and the second answer is the payload. -/
theorem readRegisterReturnsTheSecondResponse : Obligations.ReadRegisterReturnsTheSecondResponse := by
  intro s a r0 r1 rest hopen he
  rw [exec_readRegister hopen, readSeq_answers _ _ _ _ _ _ he]
  rfl

/-- Settles O35: the exchange of `WriteSeq` answers, and its response goes nowhere but into the receive buffer. -/
theorem writeRegisterSendsItsFrame : Obligations.WriteRegisterSendsItsFrame := by
  intro s a d rx rest hopen he
  rw [exec_writeRegister hopen, writeSeq_answers _ _ _ _ _ _ he]
  rfl

/-- Settles O42: the flush frame is the read request frame of address 0, so the two bare exchanges are those of
`ReadSeq`. -/
theorem twoReadFramesMakeARead : Obligations.TwoReadFramesMakeARead := by
  intro s a r0 r1 rest hopen he
  refine ⟨_, _, _, readRequestFrameIsExchanged s a r0 (.response r1 :: rest) hopen he,
    readRequestFrameIsExchanged _ 0 r1 rest hopen rfl,
    readRegisterReturnsTheSecondResponse s a r0 r1 rest hopen he, ?_, rfl, rfl, rfl, rfl, rfl⟩
  exact List.append_assoc s.xlog _ _

/-! ### An exchange that fails -/

/-- Settles O33: READ_REGISTER and REG_READ both run `ReadSeq`, which raises at the exchange that fails. -/
theorem failedReadStopsAtTheFailedExchange : Obligations.FailedReadStopsAtTheFailedExchange := by
  intro s i a rest hopen hreads
  obtain ⟨k, hexec⟩ := exec_readsAt hreads hopen
  refine ⟨fun he => ?_, fun r0 he => ?_⟩
  · rw [hexec, readSeq_first_fails _ _ _ _ he]
    rfl
  · rw [hexec, readSeq_second_fails _ _ _ _ _ he]
    rfl

/-- Settles O36: WRITE_REGISTER and an accepted REG_WRITE both run `WriteSeq`, which raises before anything is
overlaid. -/
theorem failedWriteIsNotRetried : Obligations.FailedWriteIsNotRetried := by
  refine fun s rest hopen he => ⟨fun a d => ?_, fun reg r vs hr haccepts => ?_⟩
  · rw [exec_writeRegister hopen, writeSeq_fails _ _ _ _ _ he]
    rfl
  · obtain ⟨w, hw, hrun⟩ := regWriteRun_of_accepts hopen hr haccepts
    refine ⟨w, fun s0 hconfig => exec_encode_of_ok (hconfig ▸ hw none), ?_⟩
    simp only [exec, execRegWrite, hrun, writeSeq_fails _ _ _ _ _ he]
    rfl

/-! ### An exchange that never returns -/

section
variable {op : Op} {a : Addr} {s : State} {rest : List ExchangeOutcome}

/-- An exchange that never returns leaves the phase that it began in (43_transaction R160 (c)). -/
theorem exchangeOrRaise_sticks {k : Nat} {tx : Frame} (he : s.environment = .draws (.noReturn :: rest)) :
    ∃ u, exchangeOrRaise op k tx s = .stuck u ∧ u.phase = s.phase :=
  ⟨_, exchangeOrRaise_settled op k tx he, rfl⟩

/-- An exchange that answers leaves the answers that follow. -/
theorem exchangeOrRaise_answers {k : Nat} {tx rx : Frame} (he : s.environment = .draws (.response rx :: rest)) :
    ∃ t, exchangeOrRaise op k tx s = .done rx t ∧ t.environment = .draws rest :=
  ⟨_, exchangeOrRaise_settled op k tx he, rfl⟩

/-- `ReadSeq` when exchange #1 never returns: the block is in RD_EX1 (43_transaction R161). -/
theorem readSeq_first_sticks (he : s.environment = .draws (.noReturn :: rest)) :
    ∃ u, readSeq op a s = .stuck u ∧ u.phase = .rdEx1 a := by
  obtain ⟨u, h1, hphase⟩ :=
    exchangeOrRaise_sticks (op := op) (k := 1) (tx := readFrame a) (s := s.setPhase (.rdEx1 a)) he
  exact ⟨u, by simp only [readSeq, h1, andThen, precisely], hphase⟩

/-- `ReadSeq` when exchange #2 never returns: the block is in RD_EX2 (43_transaction R161). -/
theorem readSeq_second_sticks {r0 : Frame} (he : s.environment = .draws (.response r0 :: .noReturn :: rest)) :
    ∃ u, readSeq op a s = .stuck u ∧ u.phase = .rdEx2 a := by
  obtain ⟨t, h1, ht⟩ :=
    exchangeOrRaise_answers (op := op) (k := 1) (tx := readFrame a) (s := s.setPhase (.rdEx1 a)) he
  obtain ⟨u, h2, hphase⟩ :=
    exchangeOrRaise_sticks (op := op) (k := 2) (tx := .zero) (s := t.setPhase (.rdEx2 a)) ht
  exact ⟨u, by simp only [readSeq, h1, h2, andThen, precisely], hphase⟩

/-- `WriteSeq` when its exchange never returns: the block is in WR_EX (43_transaction R164). -/
theorem writeSeq_sticks {d : DataBytes} (he : s.environment = .draws (.noReturn :: rest)) :
    ∃ u, writeSeq op a d s = .stuck u ∧ u.phase = .wrEx a := by
  obtain ⟨u, h1, hphase⟩ :=
    exchangeOrRaise_sticks (op := op) (k := 1) (tx := writeFrame a d) (s := s.setPhase (.wrEx a)) he
  exact ⟨u, by simp only [writeSeq, h1, andThen, precisely], hphase⟩

end

/-- A block that is not IDLE takes no further request, so it stays as it is for ever (60_exceptions R213). -/
theorem run_of_busy {s : State} (h : s.phase ≠ .idle) (n : Nat) : Host.Core.run Sys2Proof.core n s = .next s :=
  run_of_step_fixed (step_of_waits (fetch_of_busy h)) n

/-- An instruction whose sequence of the engine gets stuck leaves the block stuck in the phase that the sequence had
reached: what follows the sequence does not run. -/
theorem sticksIn_of_stuck {α : Type} {n : Nat} {i : Instr} {s : State} {p : Phase} {r : Run α}
    {k : α → State → Run Payload} (hexec : exec i s = .next (finish (andThen r k))) (hengine : EngineRun n s r)
    (hstuck : ∃ u, r = .stuck u ∧ u.phase = p) : sticksIn i s p := by
  obtain ⟨u, rfl, rfl⟩ := hstuck
  obtain ⟨htraffic, hbusy, -⟩ := hengine
  exact ⟨u, hexec, rfl, htraffic.results, htraffic.cache, htraffic.status, htraffic.statusRaw, htraffic.closed,
    run_of_busy hbusy⟩

/-- Settles O34: each of the four commands runs a sequence of the engine, which gets stuck in the phase of its
exchange. -/
theorem exchangeThatNeverReturnsSticks : Obligations.ExchangeThatNeverReturnsSticks := by
  refine fun s i a rest hopen => ⟨fun hreads he => ?_, fun r0 hreads he => ?_, fun hwrites he => ?_⟩
  · obtain ⟨k, hexec⟩ := exec_readsAt hreads hopen
    exact sticksIn_of_stuck hexec (engine_readSeq _ a s) (readSeq_first_sticks he)
  · obtain ⟨k, hexec⟩ := exec_readsAt hreads hopen
    exact sticksIn_of_stuck hexec (engine_readSeq _ a s) (readSeq_second_sticks he)
  · obtain ⟨d, k, hexec⟩ := exec_writesAt hwrites hopen
    exact sticksIn_of_stuck hexec (engine_writeSeq _ a d s) (writeSeq_sticks he)

end Sys2Proof.Machine
end

section
/-! Proofs about the Register Map: GET_STATUS, LOOKUP, READ_ALL and CLOSE (44_register_map R181 to R186). -/

namespace Sys2Proof.Machine

open Sys2Proof

/-! ### READ_ALL (44_register_map R182 to R184) -/

/-- The address of a register depends on the configuration only (10_state R25). -/
theorem registerAddr_congr {s t : State} (h : t.config = s.config) (r : Nat) : registerAddr t r = registerAddr s r := by
  simp only [registerAddr, registerSpec, h]

/-- READ_ALL on an open block, where the first registers' reads answer: the reads that are left begin in a state where
those are done. -/
theorem exec_readAll_after_answers {s : State} {ps : List (Frame × Frame)} {os : List ExchangeOutcome}
    (hopen : s.closed = false) (hcache : s.cache.length = s.config.table.length)
    (hps : ps.length ≤ s.config.table.length) (he : s.environment = .draws (readAnswers ps ++ os)) :
    ∃ t, exec .readAll s =
        .next (finish (readEach (List.range' ps.length (s.config.table.length - ps.length)) t)) ∧
      ReadsDone 0 ps os s t := by
  have hlength : 0 + ps.length + (s.config.table.length - ps.length) = s.config.table.length := by omega
  obtain ⟨t, hreads, hdone⟩ := readEach_answers _ ps 0 s os hopen hcache hlength he
  rw [Nat.zero_add] at hlength hreads
  refine ⟨t, ?_, hdone⟩
  rw [exec_readAll, hopen, List.range_eq_range', ← hreads, hlength]
  rfl

theorem ReadsDone.cacheEntries {ps : List (Frame × Frame)} {os : List ExchangeOutcome} {s t : State}
    (h : ReadsDone 0 ps os s t) {r : Nat} {p : Frame × Frame} (hp : ps[r]? = some p) :
    t.cache[r]? = some (some (decodeFields (fromBytes p.2.data) (registerFields s r))) := by
  simpa only [Nat.zero_add] using h.cacheIn r p hp

/-- Settles O54: all the reads answer, and none is left. -/
theorem readAllReadsTheTableInOrder : Obligations.ReadAllReadsTheTableInOrder := by
  intro s ps rest hopen hcache hps he
  obtain ⟨t, hexec, hdone⟩ := exec_readAll_after_answers hopen hcache hps.le he
  rw [hps, Nat.sub_self] at hexec
  exact ⟨giveOk .none t, hexec, by simp [hdone.results], rfl, hdone.log, hdone.environment, hdone.cacheLength,
    fun _ _ => hdone.cacheEntries, hdone.statusLast, hdone.closed, hdone.config, hdone.pending⟩

/-- The exchange that fails after the responses `head`: its frame (43_transaction R161). -/
def failingFrame (a : Addr) (head : List Frame) : Frame := if head = [] then readFrame a else .zero

/-- `ReadSeq` that fails after at most one response, at exchange #1 or #2 (43_transaction R168, 60_exceptions R207). -/
theorem readSeq_fails (op : Op) (a : Addr) {s : State} {head : List Frame} {rest : List ExchangeOutcome}
    (hhead : head.length ≤ 1) (he : s.environment = .draws (head.map .response ++ .transportError :: rest)) :
    ∃ phase pipeline drawn, readSeq op a s = .raised (.transport op (head.length + 1) (failingFrame a head))
      { s with
        phase := phase
        xlog := s.xlog ++ (head.map fun x => LogEntry.exchange (readFrame a) (.response x)) ++
          [.exchange (failingFrame a head) .transportError]
        environment := .draws rest, remotePipeline := pipeline, drawn := drawn } := by
  match head, hhead with
  | [], _ => exact ⟨_, s.remotePipeline, _, by simpa [failingFrame] using readSeq_first_fails op a s rest he⟩
  | [x], _ => exact ⟨_, _, _, by simpa [failingFrame] using readSeq_second_fails op a s x rest he⟩

/-- A chain of reads ends with the error of its first read (44_register_map R184). -/
theorem readEach_cons_of_raised {s u : State} {r : Nat} {e : Error} (hopen : s.closed = false)
    (hr : r < s.config.table.length) (h : readSeq .regRead (registerAddr s r) s = .raised e u) (rs : List Nat) :
    readEach (r :: rs) s = .raised e u := by
  rw [readEach, regReadRun_index hopen hr, h]
  rfl

/-- Settles O55: the reads before register `k` are done, and the first read that is left raises. -/
theorem readAllStopsAtTheFirstError : Obligations.ReadAllStopsAtTheFirstError := by
  intro s ps head rest hopen hcache hps hhead he
  rw [List.append_assoc] at he
  obtain ⟨t, hexec, hdone⟩ := exec_readAll_after_answers hopen hcache hps.le he
  obtain ⟨phase, pipeline, drawn, hfails⟩ :=
    readSeq_fails .regRead (registerAddr t ps.length) hhead hdone.environment
  obtain ⟨left, hleft⟩ : ∃ left, s.config.table.length - ps.length = left + 1 :=
    Nat.exists_eq_succ_of_ne_zero (Nat.sub_ne_zero_of_lt hps)
  rw [hleft, List.range'_succ, readEach_cons_of_raised (hdone.closed.trans hopen) (hdone.config ▸ hps) hfails,
    registerAddr_congr hdone.config] at hexec
  refine ⟨_, hexec, ?_, rfl, ?_, rfl, fun _ _ => hdone.cacheEntries, fun r hr => ?_, ?_⟩
  · simp only [finish, takeError_results, hdone.results, failingFrame]
  · simp only [finish, takeError_xlog, hdone.log, failingFrame]
  · exact hdone.cacheOut r (.inr (by omega))
  · have hstatus := hdone.statusLast
    have hbuffers := hdone.buffersLast
    cases hlast : ps.getLast? with
    | none | some p =>
      rw [hlast] at hstatus hbuffers
      exact ⟨hstatus.1, hstatus.2, hbuffers⟩

/-! ### GET_STATUS (44_register_map R185) -/

theorem exec_getStatus_of_closed {s : State} (h : s.closed = true) :
    exec .getStatus s = .next (answered s (.err (.closed .getStatus))) := by
  simp only [exec, execGetStatus, whileOpen_of_closed h]
  rfl

theorem exec_getStatus_of_open {s : State} (h : s.closed = false) :
    exec .getStatus s = .next (answered s (.ok (statusSnapshot s))) := by
  simp only [exec, execGetStatus, whileOpen_of_open h]
  rfl

theorem statusSnapshot_of_none {s : State} (h : s.status = none) : statusSnapshot s = .snapshot false none none := by
  simp only [statusSnapshot, h]

theorem statusSnapshot_of_some {s : State} {m : Flags} (h : s.status = some m) :
    statusSnapshot s = .snapshot true (some m) s.statusRaw := by
  simp only [statusSnapshot, h]

/-- Settles O52: an open block answers with its snapshot, which is absent or decoded. -/
theorem getStatusAnswersTheSnapshot : Obligations.GetStatusAnswersTheSnapshot := fun _ =>
  ⟨exec_getStatus_of_closed,
    fun hopen hstatus => statusSnapshot_of_none hstatus ▸ exec_getStatus_of_open hopen,
    fun _ hopen hstatus => statusSnapshot_of_some hstatus ▸ exec_getStatus_of_open hopen⟩

/-! ### LOOKUP (44_register_map R181) -/

section
variable {table : List RegisterSpec} {name : String}

theorem tableWf_names_nodup (h : tableWf table = true) : (table.map RegisterSpec.name).Nodup := by
  simp only [tableWf, Bool.and_eq_true, decide_eq_true_eq] at h
  exact h.2

/-- Names are unique, so the first register of a name is the one of that name (10_state R26). -/
theorem resolve_name_of_getElem? (hwf : tableWf table = true) {r : Nat} {R : RegisterSpec} (hR : table[r]? = some R)
    (hname : R.name = name) : resolve table (.name name) = some r := by
  obtain ⟨hr, rfl⟩ := List.getElem?_eq_some_iff.1 hR
  refine List.findIdx?_eq_some_iff_getElem.2 ⟨hr, by simpa using hname, fun j hj hfound => ?_⟩
  have hsame : (table.map RegisterSpec.name)[j]'(by simp; omega) = (table.map RegisterSpec.name)[r]'(by simpa) := by
    simpa [hname] using hfound
  exact hj.ne ((tableWf_names_nodup hwf).getElem_inj_iff.1 hsame)

theorem resolve_name_of_absent (h : ∀ R ∈ table, R.name ≠ name) : resolve table (.name name) = none := by
  simpa [resolve] using h

end

section
variable {s : State} {name : String} (hopen : s.closed = false)
include hopen

theorem exec_lookup_of_some {r : Nat} (hr : resolve s.config.table (.name name) = some r) :
    exec (.lookup name) s = .next (answered s (.ok (.register r))) := by
  simp only [exec, execLookup, lookupRun, whileOpen_of_open hopen, withRegister_of_some hr]
  rfl

theorem exec_lookup_of_none (hr : resolve s.config.table (.name name) = none) :
    exec (.lookup name) s = .next (answered s (.err (.notFoundRegister (.name name)))) := by
  simp only [exec, execLookup, lookupRun, whileOpen_of_open hopen, withRegister_of_none hr]
  rfl

end

/-- Settles O53: a name resolves to the one register that has it. -/
theorem lookupFindsTheNamedRegister : Obligations.LookupFindsTheNamedRegister := fun _ _ hopen hwf =>
  ⟨fun _ _ hR hname => exec_lookup_of_some hopen (resolve_name_of_getElem? hwf hR hname),
    fun habsent => exec_lookup_of_none hopen (resolve_name_of_absent habsent)⟩

/-! ### CLOSE (44_register_map R186) -/

/-- Settles O56: on an open block CLOSE releases the transport and answers OK. -/
theorem closeReleasesTheTransport : Obligations.CloseReleasesTheTransport := by
  intro s hopen
  rw [exec_close, hopen]
  rfl

end Sys2Proof.Machine
end

section
/-! Proofs about how commands raise: on a closed block, what a raise leaves as it was, and why a value of the cache is
never out of range (60_exceptions R203 to R208). -/

namespace Sys2Proof.Machine

open Sys2Proof

/-! ### A closed block (60_exceptions R205) -/

/-- The `Closed` check raises in the state as it is. -/
theorem finish_whileOpen_of_closed {s : State} (h : s.closed = true) (op : Op) (k : Run Payload) :
    finish (whileOpen op s k) = answered s (.err (.closed op)) :=
  congrArg finish (whileOpen_of_closed h op k)

/-- Settles O27: in each of the nine commands of the facade the `Closed` check stands first. -/
theorem closedBlockRaisesClosedError : Obligations.ClosedBlockRaisesClosedError := by
  intro i s hi hclosed
  cases i with
  | readRegister | writeRegister | regRead | regWrite | regGet | readAll | getStatus | lookup | close =>
    exact congrArg Host.Outcome.next (finish_whileOpen_of_closed hclosed _ _)
  | decode | encode | statusUpdate | readReq | writeReq | response => simp [opOf, facadeOps] at hi

/-! ### What a raise leaves as it was (60_exceptions R207, R208) -/

/-- How a command that raises `e` in the state `s` ends: with its result and nothing else, or with a TransportError
after a chain of exchanges. Only READ_ALL has written block state before that (44_register_map R184). -/
inductive Raises (i : Instr) (s : State) (e : Error) : State → Prop
  | untouched : Raises i s e (answered s (.err e))
  | failed {n : Nat} {u : State} (he : isTransportError e = true) (hchain : Chained n s u)
      (haborted : opOf i ≠ .readAll → Aborted n s u) : Raises i s e (takeError e u)

theorem raises_answered {i : Instr} {s : State} {r : Result} {e : Error}
    (hresult : (answered s r).results = s.results ++ [.err e]) : Raises i s e (answered s r) := by
  cases List.append_cancel_left hresult
  exact .untouched

/-- An instruction that ends by itself raises by a check or by an exchange that fails. -/
theorem Ends.raises {i : Instr} {s t : State} {e : Error} (h : Ends i s t)
    (hresult : t.results = s.results ++ [.err e]) : Raises i s e t := by
  cases h with
  | untouched r hr =>
    exact raises_answered hresult
  | committed ho p u c htraffic hc =>
    rw [giveOk_results, (htraffic.of_commit hc).results] at hresult
    cases List.append_cancel_left hresult
  | failed ho e' u haborted he =>
    rw [takeError_results, haborted.results] at hresult
    cases List.append_cancel_left hresult
    exact .failed he haborted.chained fun _ => haborted
  | stuck ho u htraffic =>
    simp [htraffic.results] at hresult

/-- READ_ALL raises where the read after a chain of completed ones fails (44_register_map R184). -/
theorem ChainRun.raises {n : Nat} {s : State} {run : Run Payload} {e : Error} (h : ChainRun n s run)
    (hresult : (finish run).results = s.results ++ [.err e]) : Raises .readAll s e (finish run) := by
  cases run with
  | done p t =>
    obtain ⟨-, hchain⟩ := h
    rw [finish, giveOk_results, hchain.chained.results] at hresult
    cases List.append_cancel_left hresult
  | raised e' t =>
    obtain ⟨k, u, -, hchain, haborted, he⟩ := h
    have hall := hchain.chained.trans haborted.chained
    rw [finish, takeError_results, hall.results] at hresult
    cases List.append_cancel_left hresult
    exact .failed he hall fun hne => (hne rfl).elim
  | stuck t =>
    obtain ⟨k, u, -, hchain, htraffic, -⟩ := h
    simp [finish, (hchain.chained.trans htraffic.chained).results] at hresult

/-- Every instruction whose result is an error raises in one of the two ways. -/
theorem exec_raises {i : Instr} {s t : State} {e : Error} (h : exec i s = .next t)
    (hresult : t.results = s.results ++ [.err e]) : Raises i s e t := by
  obtain ⟨rfl, rfl⟩ | ⟨st, d, rfl, rfl⟩ | ⟨rfl, rfl⟩ | hends := exec_cases h
  · cases hclosed : s.closed with
    | true =>
      rw [hclosed] at hresult
      exact raises_answered hresult
    | false =>
      rw [hclosed] at hresult
      cases List.append_cancel_left hresult
  · simp at hresult
  · cases hclosed : s.closed with
    | true =>
      rw [hclosed] at hresult
      exact raises_answered hresult
    | false =>
      rw [hclosed] at hresult
      exact (readAll_chain s hclosed).raises hresult
  · exact hends.raises hresult

/-- Settles O28: an exchange that fails raises a TransportError, so any other error is that of a check. -/
theorem otherErrorsTouchNothing : Obligations.OtherErrorsTouchNothing := by
  intro i s t e h hresult hother
  cases exec_raises h hresult with
  | untouched => rfl
  | failed he => exact (Bool.false_ne_true (hother.symm.trans he)).elim

/-- Settles O29: a check writes nothing, and a sequence that fails is aborted. -/
theorem transportErrorWritesNoBlockState : Obligations.TransportErrorWritesNoBlockState := by
  intro i s t e h hresult
  cases exec_raises h hresult with
  | untouched =>
    exact ⟨rfl, rfl, rfl, rfl, ⟨[], (List.append_nil _).symm⟩, fun _ => ⟨rfl, rfl, rfl, rfl, rfl⟩⟩
  | failed he hchain haborted =>
    obtain ⟨added, hlog, -⟩ := hchain.log
    refine ⟨rfl, hchain.closed, hchain.transportHeld, hchain.config, ⟨added, hlog⟩, fun hne => ?_⟩
    have hkept := haborted hne
    exact ⟨hkept.cache, hkept.status, hkept.statusRaw, hkept.txBuf, hkept.rxBuf⟩

/-! ### RangeError in REG_WRITE (60_exceptions R203) -/

/-- A sequence of the engine whose value ends the command with OK raises nothing but a TransportError. -/
theorem isTransportError_of_engine {α : Type} {n : Nat} {s : State} {r : Run α} {k : α → State → Run Payload}
    {e : Error} (hengine : EngineRun n s r)
    (hk : ∀ a u, ∃ p c, k a u = .done p c ∧ c.results = u.results)
    (hresult : (finish (andThen r k)).results = s.results ++ [.err e]) : isTransportError e = true := by
  cases r with
  | done a u =>
    obtain ⟨p, c, hdone, hkept⟩ := hk a u
    have htraffic : Traffic n s u := hengine
    rw [andThen, hdone, finish, giveOk_results, hkept, htraffic.results] at hresult
    cases List.append_cancel_left hresult
  | raised e' u =>
    obtain ⟨haborted, he⟩ := hengine
    rw [andThen, finish, takeError_results, haborted.results] at hresult
    cases List.append_cancel_left hresult
    exact he
  | stuck u =>
    obtain ⟨htraffic, -⟩ := hengine
    simp [andThen, finish, htraffic.results] at hresult

@[simp] theorem overlayWrite_results (rx : Frame) (s : State) : (overlayWrite rx s).results = s.results := by
  rw [overlayWrite_eq]

/-- Once its keys are checked, a write that raises another error than TransportError raises that of ENCODE
(41_register R142). -/
theorem encodeFields_error_of_mergedWrite {s : State} {r : Nat} {vs : Values} {e : Error}
    (hresult : (finish (mergedWrite r vs s)).results = s.results ++ [.err e]) (hother : isTransportError e = false) :
    encodeFields (some r) s.config.encodeOverlap (mergeValues vs (mergeBase s r)) (registerFields s r) 0 =
      .error e := by
  cases hencode : encodeFields (some r) s.config.encodeOverlap (mergeValues vs (mergeBase s r)) (registerFields s r) 0
  with
  | error e' =>
    rw [mergedWrite_of_error hencode] at hresult
    cases List.append_cancel_left hresult
    rfl
  | ok w =>
    rw [mergedWrite_of_ok hencode] at hresult
    have he := isTransportError_of_engine (engine_writeSeq _ _ _ s)
      (fun rx u => ⟨_, _, rfl, overlayWrite_results rx u⟩) hresult
    exact (Bool.false_ne_true (hother.symm.trans he)).elim

/-- An instruction that answers and does nothing else gives no other result. -/
theorem result_of_exec_answered {i : Instr} {s t : State} {r r' : Result} (h : exec i s = .next t)
    (hresult : t.results = s.results ++ [r]) (hanswered : exec i s = .next (answered s r')) : r' = r := by
  obtain rfl := Host.Outcome.next.inj (h.symm.trans hanswered)
  exact List.singleton_inj.1 (List.append_cancel_left hresult)

/-- A RangeError of REG_WRITE is that of ENCODE on the merged map: the checks before it raise other errors. -/
theorem encodeFields_error_of_regWrite {s t : State} {reg : RegRef} {vs : Values} {x : Option Nat} {name : String}
    {n width : Nat} (h : exec (.regWrite reg vs) s = .next t)
    (hresult : t.results = s.results ++ [.err (.range x name n width)]) :
    ∃ r, resolve s.config.table reg = some r ∧
      encodeFields (some r) s.config.encodeOverlap (mergeValues vs (mergeBase s r)) (registerFields s r) 0 =
        .error (.range x name n width) := by
  cases hclosed : s.closed with
  | true =>
    have hfacade : opOf (.regWrite reg vs) ∈ facadeOps := by simp [opOf, facadeOps]
    cases result_of_exec_answered h hresult (closedBlockRaisesClosedError _ s hfacade hclosed)
  | false =>
    obtain ⟨hnone, hsome⟩ := regWriteChecksInOrder s reg vs hclosed
    cases hr : resolve s.config.table reg with
    | none => cases result_of_exec_answered h hresult (hnone hr)
    | some r =>
      obtain ⟨hunknown, hreadOnly, -⟩ := hsome r hr
      refine ⟨r, rfl, ?_⟩
      by_cases hdeclared : ∀ k ∈ keys vs, k ∈ fieldNames (registerFields s r)
      · by_cases hwritable : ∀ f ∈ registerFields s r, f.access = .ro → f.name ∉ keys vs
        · obtain rfl := Host.Outcome.next.inj
            (h.symm.trans (exec_regWrite_of_writable_keys hclosed hr hdeclared hwritable))
          exact encodeFields_error_of_mergedWrite hresult rfl
        · obtain ⟨_, -, hexec⟩ := hreadOnly hdeclared (by simpa using hwritable)
          cases result_of_exec_answered h hresult hexec
      · obtain ⟨_, -, hexec⟩ := hunknown (by simpa using hdeclared)
        cases result_of_exec_answered h hresult hexec

/-- What ENCODE puts into a field from a merged map stands in `values` or comes from the base (41_register R134). -/
theorem encodes_mergeValues {vs base : Values} {f : FieldSpec} {v : Value} (h : encodes (mergeValues vs base) f v) :
    vs.lookup f.name = some v ∨ encodes base f v := by
  obtain ⟨hrw, hvalue⟩ := h
  rw [merge_lookup, Option.or_eq_some_iff] at hvalue
  exact hvalue.imp_right fun hbase => ⟨hrw, hbase.2⟩

/-- In a state of a session a cache entry is a decoded map (10_state R29). -/
theorem Inv.cacheEntry_decoded {s : State} (h : Inv s) {r : Nat} {m : Values} (hentry : cacheEntry s r = some m) :
    ∃ w, m = decodeFields w (registerFields s r) := by
  refine h.cacheDecoded r m ?_
  rw [cacheEntry, List.getD_eq_getElem?_getD] at hentry
  cases hcached : s.cache[r]? with
  | none => simp [hcached] at hentry
  | some entry => simpa [hcached] using hentry

/-- The merge base of a register never read is empty, and that of any other is decoded, so its values fit. -/
theorem Inv.inRange_mergeBase {s : State} (h : Inv s) {reg : RegRef} {r : Nat}
    (hr : resolve s.config.table reg = some r) : inRange (mergeBase s r) (registerFields s r) := by
  cases hentry : cacheEntry s r with
  | none => simp [inRange, encodes, mergeBase, hentry]
  | some m =>
    obtain ⟨w, rfl⟩ := h.cacheEntry_decoded hentry
    rw [mergeBase, hentry]
    exact inRange_decodeFields (registerFields_wf h.configWf hr) w

/-- Settles O31: the value out of range is one of the merged map, and a cached one is in range. -/
theorem cachedValuesNeverRaiseRangeError : Obligations.CachedValuesNeverRaiseRangeError := by
  intro s t reg vs x name n width hinv h hresult
  obtain ⟨r, hr, hencode⟩ := encodeFields_error_of_regWrite h hresult
  obtain ⟨f, hf, v, hv, hle, he⟩ := encodeFields_error hencode
  cases he
  obtain hsupplied | hcached := encodes_mergeValues hv
  · exact ⟨v, hsupplied, rfl, hle⟩
  · exact (Nat.not_lt.2 hle (hinv.inRange_mergeBase hr f hf v hcached)).elim

end Sys2Proof.Machine
end

section
/-! Proofs about the stale-merge hazard: what a REG_WRITE puts on the wire, it makes of the configuration and the cache
alone, and an earlier REG_WRITE changed neither (70_reset R236). -/

namespace Sys2Proof.Machine

open Sys2Proof

/-! ### What REG_WRITE reads (41_register R134, R136) -/

section
variable {s t : State}

/-- The merge base depends on the cache only. -/
theorem mergeBase_congr (hcache : t.cache = s.cache) (r : Nat) : mergeBase t r = mergeBase s r := by
  simp only [mergeBase, cacheEntry, hcache]

/-- The checks of REG_WRITE read the configuration and the cache only. -/
theorem acceptsWrite_congr (hconfig : t.config = s.config) (hcache : t.cache = s.cache) (r : Nat) (vs : Values) :
    acceptsWrite t r vs ↔ acceptsWrite s r vs := by
  simp only [acceptsWrite, registerFields_congr hconfig, mergeBase_congr hcache]

end

/-- The frame that an accepted REG_WRITE sends is fixed by the configuration and the cache: every open state that has
both sends it, whatever its log, its status and its buffers hold. -/
theorem exec_regWrite_sends_frame_of_cache {s : State} {reg : RegRef} {r : Nat} {vs : Values}
    (hr : resolve s.config.table reg = some r) (haccepts : acceptsWrite s r vs) :
    ∃ tx, ∀ (t : State) (rx : Frame) (rest : List ExchangeOutcome), t.config = s.config → t.cache = s.cache →
      t.closed = false → t.environment = .draws (.response rx :: rest) →
      ∃ u, exec (.regWrite reg vs) t = .next u ∧ u.txBuf = tx ∧
        u.xlog = t.xlog ++ [.exchange tx (.response rx)] := by
  have ⟨_, _, hrange⟩ := haccepts
  obtain ⟨w, hw⟩ := encodeFields_of_inRange (register := none) (policy := s.config.encodeOverlap) hrange 0
  refine ⟨writeFrame (registerAddr s r) (toBytes w), fun t rx rest hconfig hcache hopen he => ?_⟩
  obtain ⟨w', hw', hexec⟩ := exec_regWrite_answers hopen (hconfig ▸ hr)
    ((acceptsWrite_congr hconfig hcache r vs).2 haccepts) he
  have hsame : w' = w := by
    have hencode := hw' none
    rw [hconfig, mergeBase_congr hcache, registerFields_congr hconfig, hw] at hencode
    exact (Except.ok.inj hencode).symm
  rw [hsame, registerAddr_congr hconfig] at hexec
  exact ⟨_, hexec, rfl, rfl⟩

/-- An accepted REG_WRITE whose exchange answers leaves what the next one reads, and takes one answer of the transport
(41_register R138). -/
theorem exec_regWrite_keeps_cache {s : State} {reg : RegRef} {r : Nat} {vs : Values} {rx : Frame}
    {rest : List ExchangeOutcome} (hopen : s.closed = false) (hr : resolve s.config.table reg = some r)
    (haccepts : acceptsWrite s r vs) (he : s.environment = .draws (.response rx :: rest)) :
    ∃ t, exec (.regWrite reg vs) s = .next t ∧ t.config = s.config ∧ t.cache = s.cache ∧ t.closed = false ∧
      t.environment = .draws rest := by
  obtain ⟨_, -, hexec⟩ := exec_regWrite_answers hopen hr haccepts he
  exact ⟨_, hexec, rfl, rfl, hopen, rfl⟩

/-- Settles O49: the second write makes its frame of the configuration and the cache, which the first one kept. -/
theorem staleMergeForgetsTheFirstWrite : Obligations.StaleMergeForgetsTheFirstWrite := by
  intro s reg r vs1 vs2 x y rest hopen hr he haccepts
  obtain ⟨t, hfirst, hconfig, hcache, hstillOpen, hrest⟩ :=
    exec_regWrite_keeps_cache hopen hr (haccepts vs1 (.inl rfl)) he
  obtain ⟨tx, hsends⟩ := exec_regWrite_sends_frame_of_cache hr (haccepts vs2 (.inr rfl))
  obtain ⟨u, hsecond, hutx, hulog⟩ := hsends t y rest hconfig hcache hstillOpen hrest
  obtain ⟨v, halone, hvtx, hvlog⟩ := hsends s x _ rfl rfl hopen he
  exact ⟨t, u, v, hfirst, hsecond, halone, hutx.trans hvtx.symm, tx, hulog, hvlog⟩

end Sys2Proof.Machine
end
